-- ==== Sys2Proof/Word.lean ====
section
/-! DEFINITION. The widths of the core's values: bytes, 16-bit words, instruction fields, register and key indexes
(spec/00_scope.md R8, R10, R11; spec/30_encoding.md R90). Every value is unsigned (R11). -/

namespace Sys2Proof

/-- A byte: a general register, a timer, a memory cell (00_scope.md R8). -/
abbrev Byte := BitVec 8

/-- A 16-bit value: `I`, `pc`, a stack entry, an instruction word (00_scope.md R8, 30_encoding.md R90). -/
abbrev Word := BitVec 16

/-- The immediate nibble N (30_encoding.md R90). -/
abbrev Nibble := BitVec 4

/-- The immediate address NNN (30_encoding.md R90). -/
abbrev Addr := BitVec 12

/-- The index of a general register: all 16 values are legal (30_encoding.md R93). -/
abbrev Reg := Fin 16

/-- The index of a key, 0 to 15 (10_state.md R33). -/
abbrev Key := Fin 16

/-- The 16 key bits: bit k is `keys[k]`, 1 meaning pressed (10_state.md R33). -/
abbrev KeyVec := BitVec 16

/-- VF, the flag register: `V[15]` (10_state.md R21). -/
abbrev VF : Reg := 15

end Sys2Proof
end

