-- ==== Sys2Proof/Syntax.lean ====
section
/-! DEFINITION. The instructions: one constructor for each of the 34 rows of spec/opcode_table.json
(spec/30_encoding.md R94 to R98, R103). A field an instruction ignores (R99) is no operand of it, but for Y of SHR and
SHL, which the parameter SHIFT_SRC may read. -/

namespace Sys2Proof

/-- An instruction with its operands. Every value of every operand is legal (30_encoding.md R92, R93), so every term is
a well-formed instruction. -/
inductive Instr where
  /-- `CLS` (44_display.md R210). -/
  | cls
  /-- `RET` (41_control.md R140). -/
  | ret
  /-- `JP addr` (41_control.md R141). -/
  | jp (nnn : Addr)
  /-- `CALL addr` (41_control.md R142). -/
  | call (nnn : Addr)
  /-- `SE Vx, byte` (41_control.md R143). -/
  | seByte (x : Reg) (nn : Byte)
  /-- `SNE Vx, byte` (41_control.md R144). -/
  | sneByte (x : Reg) (nn : Byte)
  /-- `SE Vx, Vy` (41_control.md R145). -/
  | seReg (x y : Reg)
  /-- `LD Vx, byte` (42_alu.md R160). -/
  | ldByte (x : Reg) (nn : Byte)
  /-- `ADD Vx, byte` (42_alu.md R161). -/
  | addByte (x : Reg) (nn : Byte)
  /-- `LD Vx, Vy` (42_alu.md R162). -/
  | ldReg (x y : Reg)
  /-- `OR Vx, Vy` (42_alu.md R163). -/
  | orReg (x y : Reg)
  /-- `AND Vx, Vy` (42_alu.md R164). -/
  | andReg (x y : Reg)
  /-- `XOR Vx, Vy` (42_alu.md R165). -/
  | xorReg (x y : Reg)
  /-- `ADD Vx, Vy` (42_alu.md R166). -/
  | addReg (x y : Reg)
  /-- `SUB Vx, Vy` (42_alu.md R167). -/
  | subReg (x y : Reg)
  /-- `SHR Vx {, Vy}` (42_alu.md R168). -/
  | shr (x y : Reg)
  /-- `SUBN Vx, Vy` (42_alu.md R169). -/
  | subn (x y : Reg)
  /-- `SHL Vx {, Vy}` (42_alu.md R170). -/
  | shl (x y : Reg)
  /-- `SNE Vx, Vy` (41_control.md R146). -/
  | sneReg (x y : Reg)
  /-- `LD I, addr` (43_index_memory.md R190). -/
  | ldI (nnn : Addr)
  /-- `JP V0, addr` (41_control.md R147). -/
  | jpV0 (nnn : Addr)
  /-- `RND Vx, byte` (42_alu.md R171). -/
  | rnd (x : Reg) (nn : Byte)
  /-- `DRW Vx, Vy, nibble` (44_display.md R211). -/
  | drw (x y : Reg) (n : Nibble)
  /-- `SKP Vx` (45_timers_input.md R230). -/
  | skp (x : Reg)
  /-- `SKNP Vx` (45_timers_input.md R231). -/
  | sknp (x : Reg)
  /-- `LD Vx, DT` (45_timers_input.md R232). -/
  | ldVxDT (x : Reg)
  /-- `LD Vx, K` (45_timers_input.md R233). -/
  | ldVxK (x : Reg)
  /-- `LD DT, Vx` (45_timers_input.md R234). -/
  | ldDTVx (x : Reg)
  /-- `LD ST, Vx` (45_timers_input.md R235). -/
  | ldSTVx (x : Reg)
  /-- `ADD I, Vx` (43_index_memory.md R191). -/
  | addI (x : Reg)
  /-- `LD F, Vx` (43_index_memory.md R192). -/
  | ldF (x : Reg)
  /-- `LD B, Vx` (43_index_memory.md R193). -/
  | ldB (x : Reg)
  /-- `LD [I], Vx` (43_index_memory.md R194). -/
  | storeRegs (x : Reg)
  /-- `LD Vx, [I]` (43_index_memory.md R195). -/
  | loadRegs (x : Reg)
  deriving DecidableEq, Repr

end Sys2Proof
end

