-- ==== Sys2Proof/WellFormed.lean ====
section
/-! DEFINITION. What is well formed. A term of `Instr` always is: its operands carry their widths, and all their values
are legal (spec/30_encoding.md R92, R93, R101). What can be ill formed is an instruction WORD: `wordLegal` is the rule of
R100 for it, written from that rule's list of illegal words and not from the decoder. -/

namespace Sys2Proof

/-- R100, class 0x0: only N = 0x0 and N = 0xE have a handler. -/
def class0Legal (n : Nat) : Bool := n == 0x0 || n == 0xE

/-- R100, class 0x8: N = 0x8..0xD and 0xF have none. -/
def class8Legal (n : Nat) : Bool := !((0x8 ≤ n && n ≤ 0xD) || n == 0xF)

/-- R100, class 0xE: only NN = 0x9E and NN = 0xA1 have a handler. -/
def classELegal (nn : Nat) : Bool := nn == 0x9E || nn == 0xA1

/-- R100, class 0xF: the nine values of NN that have a handler. -/
def classFLegal (nn : Nat) : Bool :=
  [0x07, 0x0A, 0x15, 0x18, 0x1E, 0x29, 0x33, 0x55, 0x65].contains nn

/-- A word is legal when it is none of the illegal words R100 lists: classes other than 0x0, 0x8, 0xE and 0xF have no
illegal word. -/
def wordLegal (w : Word) : Bool :=
  let c := w.toNat / 0x1000
  let nn := w.toNat % 0x100
  let n := w.toNat % 0x10
  if c == 0x0 then class0Legal n
  else if c == 0x8 then class8Legal n
  else if c == 0xE then classELegal nn
  else if c == 0xF then classFLegal nn
  else true

end Sys2Proof
end

