-- ==== Sys2Proof/Decode.lean ====
section
/-! DEFINITION. Field extraction (spec/30_encoding.md R90), the two-level dispatch from fields to an instruction
(R94 to R98), the decoder over bytes (big-endian: spec/20_memory.md R61), and the encoder (R103). The numeric opcodes
are general knowledge by the spec's own words (93_implementation_defined.md G1, log entry 16). -/

namespace Sys2Proof

/-- The six fields of an instruction word (R90; six by 90_conflicts.md C2). -/
structure Fields where
  c   : Nibble
  x   : Reg
  y   : Reg
  n   : Nibble
  nn  : Byte
  nnn : Addr
  deriving DecidableEq, Repr

/-- `C = w[15:12]; X = w[11:8]; Y = w[7:4]; N = w[3:0]; NN = w[7:0]; NNN = w[11:0]` (R90). Pure and total (R102). -/
def fields (w : Word) : Fields where
  c   := w.extractLsb' 12 4
  x   := (w.extractLsb' 8 4).toFin
  y   := (w.extractLsb' 4 4).toFin
  n   := w.extractLsb' 0 4
  nn  := w.extractLsb' 0 8
  nnn := w.extractLsb' 0 12

/-- Why the decoder gives no instruction: the sub-key that has no handler (R100), or fewer than two bytes. -/
inductive Reject where
  | class0 (n : Nibble)
  | class8 (n : Nibble)
  | classE (nn : Byte)
  | classF (nn : Byte)
  | truncated
  deriving DecidableEq, Repr

/-- Class 0x0 is keyed on N alone (R95). -/
def dispatch0 (f : Fields) : Except Reject Instr :=
  match f.n with
  | 0x0#4 => .ok .cls
  | 0xE#4 => .ok .ret
  | n => .error (.class0 n)

/-- Class 0x8 is keyed on N (R96). -/
def dispatch8 (f : Fields) : Except Reject Instr :=
  match f.n with
  | 0x0#4 => .ok (.ldReg f.x f.y)
  | 0x1#4 => .ok (.orReg f.x f.y)
  | 0x2#4 => .ok (.andReg f.x f.y)
  | 0x3#4 => .ok (.xorReg f.x f.y)
  | 0x4#4 => .ok (.addReg f.x f.y)
  | 0x5#4 => .ok (.subReg f.x f.y)
  | 0x6#4 => .ok (.shr f.x f.y)
  | 0x7#4 => .ok (.subn f.x f.y)
  | 0xE#4 => .ok (.shl f.x f.y)
  | n => .error (.class8 n)

/-- Class 0xE is keyed on NN (R97). -/
def dispatchE (f : Fields) : Except Reject Instr :=
  match f.nn with
  | 0x9E#8 => .ok (.skp f.x)
  | 0xA1#8 => .ok (.sknp f.x)
  | nn => .error (.classE nn)

/-- Class 0xF is keyed on NN (R98). -/
def dispatchF (f : Fields) : Except Reject Instr :=
  match f.nn with
  | 0x07#8 => .ok (.ldVxDT f.x)
  | 0x0A#8 => .ok (.ldVxK f.x)
  | 0x15#8 => .ok (.ldDTVx f.x)
  | 0x18#8 => .ok (.ldSTVx f.x)
  | 0x1E#8 => .ok (.addI f.x)
  | 0x29#8 => .ok (.ldF f.x)
  | 0x33#8 => .ok (.ldB f.x)
  | 0x55#8 => .ok (.storeRegs f.x)
  | 0x65#8 => .ok (.loadRegs f.x)
  | nn => .error (.classF nn)

/-- The top-level lookup on the class nibble (R94): the table has an entry for each of its 16 values, and the last arm is
the one that is left, class 0xF. -/
def dispatch (f : Fields) : Except Reject Instr :=
  match f.c with
  | 0x0#4 => dispatch0 f
  | 0x1#4 => .ok (.jp f.nnn)
  | 0x2#4 => .ok (.call f.nnn)
  | 0x3#4 => .ok (.seByte f.x f.nn)
  | 0x4#4 => .ok (.sneByte f.x f.nn)
  | 0x5#4 => .ok (.seReg f.x f.y)
  | 0x6#4 => .ok (.ldByte f.x f.nn)
  | 0x7#4 => .ok (.addByte f.x f.nn)
  | 0x8#4 => dispatch8 f
  | 0x9#4 => .ok (.sneReg f.x f.y)
  | 0xA#4 => .ok (.ldI f.nnn)
  | 0xB#4 => .ok (.jpV0 f.nnn)
  | 0xC#4 => .ok (.rnd f.x f.nn)
  | 0xD#4 => .ok (.drw f.x f.y f.n)
  | 0xE#4 => dispatchE f
  | _ => dispatchF f

/-- The instruction of a word, or why there is none (R94 to R101). -/
def decode (w : Word) : Except Reject Instr := dispatch (fields w)

/-- The word of two bytes, the first the high one (20_memory.md R61, 00_scope.md R13). -/
def wordOfBytes (hi lo : Byte) : Word := hi ++ lo

/-- The high byte of a word, which stands at the lower address (20_memory.md R61). -/
def hiByte (w : Word) : Byte := w.extractLsb' 8 8

/-- The low byte of a word, which stands at the higher address (20_memory.md R61). -/
def loByte (w : Word) : Byte := w.extractLsb' 0 8

/-- The decoder over bytes: one instruction is two bytes (R91), and the rest of the list is left. -/
def decodeBytes : List Byte → Except Reject (Instr × List Byte)
  | hi :: lo :: rest =>
    match decode (wordOfBytes hi lo) with
    | .ok i => .ok (i, rest)
    | .error r => .error r
  | _ => .error .truncated

/-- The instruction word whose bits, numbered as spec/opcode_table.json numbers them, are `w`, of which `nbits` are
given: every instruction is one 16-bit word (R91). -/
def tableWord (nbits w : Nat) : Word := BitVec.ofNat 16 (w % 2 ^ nbits)

/-- The instruction the decoder reads from that word's two bytes as memory holds them. -/
def decodeTableWord (nbits w : Nat) : Option Instr :=
  match decodeBytes [hiByte (tableWord nbits w), loByte (tableWord nbits w)] with
  | .ok (i, _) => some i
  | .error _ => none

/-! The encoder, from the syntax table of 30_encoding.md R103: the canonical word, with the bits an instruction ignores
(R99) at 0, but for bits 11..4 of CLS and RET, which are 0x0E there. -/

/-- A register's four bits. -/
def regBits (r : Reg) : Nibble := BitVec.ofFin r

/-- `C` and NNN. -/
def encNNN (c : Nibble) (nnn : Addr) : Word := c ++ nnn

/-- `C`, X and NN. -/
def encXNN (c : Nibble) (x : Reg) (nn : Byte) : Word := (c ++ regBits x) ++ nn

/-- `C`, X, Y and N. -/
def encXYN (c : Nibble) (x y : Reg) (n : Nibble) : Word := (c ++ regBits x) ++ (regBits y ++ n)

/-- The canonical word of an instruction (R103). -/
def encode : Instr → Word
  | .cls => 0x00E0#16
  | .ret => 0x00EE#16
  | .jp nnn => encNNN 0x1#4 nnn
  | .call nnn => encNNN 0x2#4 nnn
  | .seByte x nn => encXNN 0x3#4 x nn
  | .sneByte x nn => encXNN 0x4#4 x nn
  | .seReg x y => encXYN 0x5#4 x y 0x0#4
  | .ldByte x nn => encXNN 0x6#4 x nn
  | .addByte x nn => encXNN 0x7#4 x nn
  | .ldReg x y => encXYN 0x8#4 x y 0x0#4
  | .orReg x y => encXYN 0x8#4 x y 0x1#4
  | .andReg x y => encXYN 0x8#4 x y 0x2#4
  | .xorReg x y => encXYN 0x8#4 x y 0x3#4
  | .addReg x y => encXYN 0x8#4 x y 0x4#4
  | .subReg x y => encXYN 0x8#4 x y 0x5#4
  | .shr x y => encXYN 0x8#4 x y 0x6#4
  | .subn x y => encXYN 0x8#4 x y 0x7#4
  | .shl x y => encXYN 0x8#4 x y 0xE#4
  | .sneReg x y => encXYN 0x9#4 x y 0x0#4
  | .ldI nnn => encNNN 0xA#4 nnn
  | .jpV0 nnn => encNNN 0xB#4 nnn
  | .rnd x nn => encXNN 0xC#4 x nn
  | .drw x y n => encXYN 0xD#4 x y n
  | .skp x => encXNN 0xE#4 x 0x9E#8
  | .sknp x => encXNN 0xE#4 x 0xA1#8
  | .ldVxDT x => encXNN 0xF#4 x 0x07#8
  | .ldVxK x => encXNN 0xF#4 x 0x0A#8
  | .ldDTVx x => encXNN 0xF#4 x 0x15#8
  | .ldSTVx x => encXNN 0xF#4 x 0x18#8
  | .addI x => encXNN 0xF#4 x 0x1E#8
  | .ldF x => encXNN 0xF#4 x 0x29#8
  | .ldB x => encXNN 0xF#4 x 0x33#8
  | .storeRegs x => encXNN 0xF#4 x 0x55#8
  | .loadRegs x => encXNN 0xF#4 x 0x65#8

/-- The bytes of an instruction as memory holds them, in the order of their addresses (20_memory.md R61). -/
def encodeBytes (i : Instr) : List Byte := [hiByte (encode i), loByte (encode i)]

/-- The bits of an instruction's word that its handler ignores (R99), for SHIFT_SRC = X. -/
def ignoredBits : Instr → Word
  | .cls => 0x0FF0#16
  | .ret => 0x0FF0#16
  | .seReg _ _ => 0x000F#16
  | .sneReg _ _ => 0x000F#16
  | .shr _ _ => 0x00F0#16
  | .shl _ _ => 0x00F0#16
  | .jp _ | .call _ | .seByte _ _ | .sneByte _ _ | .ldByte _ _ | .addByte _ _ | .ldReg _ _ | .orReg _ _ | .andReg _ _
  | .xorReg _ _ | .addReg _ _ | .subReg _ _ | .subn _ _ | .ldI _ | .jpV0 _ | .rnd _ _ | .drw _ _ _ | .skp _ | .sknp _
  | .ldVxDT _ | .ldVxK _ | .ldDTVx _ | .ldSTVx _ | .addI _ | .ldF _ | .ldB _ | .storeRegs _ | .loadRegs _ => 0x0000#16

end Sys2Proof
end

