-- ==== Sys2Proof/Config.lean ====
section
/-! DEFINITION. The parameters of spec/00_scope.md R9: the types of the two that are names, and the free values RAND and
WAIT_PICK, which the spec leaves open. The values this hardware gives the settled parameters stand in
Sys2Proof/Machine/Params.lean. -/

namespace Sys2Proof.Config

/-- SHIFT_SRC: which register SHR and SHL shift (00_scope.md R9, 42_alu.md R168). -/
inductive ShiftSrc where
  | x
  | y
  deriving DecidableEq, Repr

/-- EDGE_MODE: what DRW does at the display's edges (00_scope.md R9, 44_display.md R212). -/
inductive EdgeMode where
  | wrap
  | clip
  deriving DecidableEq, Repr

/-- RAND, free: the byte r of the `Cycle(r)` that the model runs when no host event is listed, one for each draw. The spec
leaves it open: "any byte in [0, 255], under no law" (42_alu.md R171, 92_eei_decisions.md D27). Log entry 2. -/
opaque randByte : Nat → Byte

/-- WAIT_PICK, free: selects one of the keys pressed together, one number for each draw; it is reduced to the number of
candidates, so that it is always a member of P (45_timers_input.md R236, 92_eei_decisions.md D17). Log entry 3. -/
opaque waitPick : Nat → Nat

end Sys2Proof.Config
end

