-- ==== Sys2Proof/Machine/Params.lean ====
section
/-! DEFINITION. The values this hardware gives the parameters of spec/00_scope.md R9 (log entry 8). INIT_REGS = zero is
`State.reset` (log entry 9). The operations that read a parameter take it as an argument, so that its other value has a
meaning too. -/

namespace Sys2Proof.Machine

/-- SHIFT_SRC = X (92_eei_decisions.md D3). -/
def shiftSrc : Config.ShiftSrc := .x

/-- EDGE_MODE = wrap (92_eei_decisions.md D10). -/
def edgeMode : Config.EdgeMode := .wrap

/-- STRICT_PC = true (92_eei_decisions.md D9). -/
def strictPc : Bool := true

/-- GLYPH_BASE = 0x000 (92_eei_decisions.md D14). -/
def glyphBase : Nat := 0x000

/-- GLYPH_TABLE: five bytes for each of the sixteen digits (20_memory.md R66). -/
def glyphTable : List Byte :=
  [0xF0, 0x90, 0x90, 0x90, 0xF0] ++ [0x20, 0x60, 0x20, 0x20, 0x70] ++
  [0xF0, 0x10, 0xF0, 0x80, 0xF0] ++ [0xF0, 0x10, 0xF0, 0x10, 0xF0] ++
  [0x90, 0x90, 0xF0, 0x10, 0x10] ++ [0xF0, 0x80, 0xF0, 0x10, 0xF0] ++
  [0xF0, 0x80, 0xF0, 0x90, 0xF0] ++ [0xF0, 0x10, 0x20, 0x40, 0x40] ++
  [0xF0, 0x90, 0xF0, 0x90, 0xF0] ++ [0xF0, 0x90, 0xF0, 0x10, 0xF0] ++
  [0xF0, 0x90, 0xF0, 0x90, 0x90] ++ [0xE0, 0x90, 0xE0, 0x90, 0xE0] ++
  [0xF0, 0x80, 0x80, 0x80, 0xF0] ++ [0xE0, 0x90, 0x90, 0x90, 0xE0] ++
  [0xF0, 0x80, 0xF0, 0x80, 0xF0] ++ [0xF0, 0x80, 0xF0, 0x80, 0x80]

end Sys2Proof.Machine
end

