-- ==== Sys2Proof/Machine/State.lean ====
section
/-! DEFINITION. The state of the core as plain data (spec/10_state.md: the tuple
`(mem, V, I, pc, stack, sp, DT, ST, disp, redraw, keys, mode)`), the host's events (spec/60_exceptions.md R320), the
reasons the machine stops, and the state after reset (R38). -/

namespace Sys2Proof.Machine

/-- Memory: the bytes that differ from their reset value, as (address, byte) pairs in rising order of address. What an
unlisted address reads as is `resetByte` (Machine/Memory.lean), the contents 20_memory.md R66 and R67 give it. -/
abbrev Memory := List Host.Cell

/-- The display: `disp[c][r]`, 64 columns of 32 rows, `true` for a pixel that is 1 (10_state.md R31). -/
abbrev Display := Vector (Vector Bool 32) 64

/-- The kinds of error, in the order of their codes (60_exceptions.md R300). -/
inductive ErrorKind where
  /-- A word whose sub-key has no handler (30_encoding.md R100). -/
  | decodeError
  /-- CALL with sp = 16 (41_control.md R142). -/
  | stackOverflow
  /-- RET with sp = 0 (41_control.md R140). -/
  | stackUnderflow
  /-- A memory access, a fetch or an update of I out of range (20_memory.md R63, 43_index_memory.md R196). -/
  | addressRangeError
  /-- A program image too long (70_reset_and_hazards.md R342): no machine exists, so no state records it. -/
  | loadError
  /-- A fetch at an odd pc or a pc below 0x200 (40_execution_cycle.md R122). -/
  | pcInvariantError
  /-- SKP or SKNP with V[X] above 15 (45_timers_input.md R230, R231). -/
  | keyRangeError
  /-- A read of an unwritten register; never raised with INIT_REGS = zero, this hardware's value (10_state.md R39). -/
  | unwrittenRead
  deriving DecidableEq, Repr

/-- The number R300 gives each kind. -/
def ErrorKind.code : ErrorKind → Nat
  | .decodeError => 1
  | .stackOverflow => 2
  | .stackUnderflow => 3
  | .addressRangeError => 4
  | .loadError => 5
  | .pcInvariantError => 6
  | .keyRangeError => 7
  | .unwrittenRead => 8

/-- The `info` of a fault record: "the offending address, key index or stack pointer" (10_state.md R35). -/
inductive FaultInfo where
  | none
  | address (a : Nat)
  | sp (n : Nat)
  | key (k : Nat)
  deriving DecidableEq, Repr

/-- The fault record (10_state.md R35). Its `code` is a function of its kind. -/
structure FaultRecord where
  kind : ErrorKind
  /-- The pc of the instruction that raised it, or of the fetch. -/
  pc   : Word
  /-- The instruction word when it was fetched. -/
  word : Option Word
  info : FaultInfo
  deriving DecidableEq, Repr

/-- The record's `code` (10_state.md R35). -/
def FaultRecord.code (r : FaultRecord) : Nat := r.kind.code

/-- The execution mode (10_state.md R34). -/
inductive Mode where
  | running
  | waitingForKey (x : Reg)
  | faulted (rec : FaultRecord)
  deriving DecidableEq, Repr

/-- The host's events (60_exceptions.md R320). -/
inductive HostEvent where
  /-- One cycle, with the random source's next byte. -/
  | cycle (r : Byte)
  /-- One 60 Hz tick of the timers. -/
  | tick
  /-- The current key vector. -/
  | keys (v : KeyVec)
  /-- The redraw flag is cleared. -/
  | clearRedraw
  deriving DecidableEq, Repr

/-- The state of the core. The first twelve fields are the spec's; the last three are the model's own (log entries 1, 2
and 3). -/
structure State where
  /-- The 4096 bytes of memory (20_memory.md R60). -/
  mem    : Memory
  /-- V[0] to V[15]; V[15] is VF (10_state.md R20, R21). -/
  V      : Vector Byte 16
  /-- The index register (10_state.md R26). -/
  I      : Word
  /-- The program counter (10_state.md R23). -/
  pc     : Word
  /-- The call stack (10_state.md R27). -/
  stack  : Vector Word 16
  /-- The number of stack entries in use, 0 to 16 (10_state.md R28). -/
  sp     : Fin 17
  /-- The delay timer (10_state.md R29). -/
  DT     : Byte
  /-- The sound timer (10_state.md R30). -/
  ST     : Byte
  /-- The display buffer (10_state.md R31). -/
  disp   : Display
  /-- The redraw flag (10_state.md R32). -/
  redraw : Bool
  /-- The input state (10_state.md R33). -/
  keys   : KeyVec
  /-- Running, waiting for a key, or faulted (10_state.md R34). -/
  mode   : Mode
  /-- The model's own: the host events not yet delivered, oldest first (log entry 1). -/
  inputs : List HostEvent
  /-- The model's own: the byte of the `Cycle(r)` event under way, if an event of `inputs` supplied one (log entry 2). -/
  rand   : Option Byte
  /-- The model's own: how many free values have been drawn (log entries 2 and 3). -/
  draws  : Nat
  deriving DecidableEq, Repr

/-- The reasons the machine stops. A fatal error of a cycle is no stop: the core enters mode Faulted (60_exceptions.md
R304), a next state. -/
inductive Fault where
  /-- Raised by `construct` for a program image longer than 3584 bytes (70_reset_and_hazards.md R342): no machine state
  exists. Safe: the spec accepts no event then. -/
  | loadError (length : Nat)
  deriving DecidableEq, Repr

/-- The reasons a step gives no meaning. -/
inductive Refusal where
  /-- Raised by an arm of `exec` for an instruction that has no meaning yet; no arm does. Safe: the machine stops. -/
  | notModelled (mnemonic : String)
  deriving DecidableEq, Repr

/-- What a step answers. -/
abbrev Result := Host.Outcome State Fault Refusal

/-- The state after construction with an empty program image (10_state.md R38, 70_reset_and_hazards.md R341, R342); the
last three fields are the model's own (log entry 18). -/
def State.reset : State where
  mem    := []
  V      := Vector.replicate 16 0
  I      := 0
  pc     := 0x200
  stack  := Vector.replicate 16 0
  sp     := 0
  DT     := 0
  ST     := 0
  disp   := Vector.replicate 64 (Vector.replicate 32 false)
  redraw := false
  keys   := 0
  mode   := .running
  inputs := []
  rand   := none
  draws  := 0

end Sys2Proof.Machine
end

