-- ==== Sys2Proof/Machine/Memory.lean ====
section
/-! DEFINITION. Memory: what an address holds after construction (spec/20_memory.md R66, R67), and reading and writing
it (R63). Which accesses are in range is checked by the operation that makes them (`State.guardRange`, `fetchCheck`). -/

namespace Sys2Proof.Machine

/-- What address `a` holds after construction with an empty image, and so what an unlisted address reads as: the glyph
table from GLYPH_BASE, every other byte 0 (R66, R67). -/
def resetByte (a : Nat) : Byte :=
  if a < glyphBase then 0 else (glyphTable[a - glyphBase]?).getD 0

/-- The byte at an address. -/
def Memory.read : Memory → Nat → Byte
  | [], a => resetByte a
  | (b, u) :: m, a => if b = a then u else Memory.read m a

/-- A cell put at its place in the rising order. -/
def Memory.insertCell : Memory → Nat → Byte → Memory
  | [], a, v => [(a, v)]
  | (b, u) :: m, a, v => if a < b then (a, v) :: (b, u) :: m else (b, u) :: Memory.insertCell m a v

/-- The memory without the cell of an address, which then reads as after construction. -/
def Memory.erase (m : Memory) (a : Nat) : Memory := m.filter fun c => c.1 != a

/-- Memory with byte `v` at address `a`: a value equal to the reset byte leaves no cell (canonical form). -/
def Memory.write (m : Memory) (a : Nat) (v : Byte) : Memory :=
  if v = resetByte a then m.erase a else (m.erase a).insertCell a v

/-- Bytes written at rising addresses from `a`. -/
def Memory.writeList : Memory → Nat → List Byte → Memory
  | m, _, [] => m
  | m, a, b :: bs => Memory.writeList (m.write a b) (a + 1) bs

/-- The bytes at the `n` addresses from `a`. -/
def Memory.readList (m : Memory) (a : Nat) : Nat → List Byte
  | 0 => []
  | n + 1 => m.read a :: Memory.readList m (a + 1) n

/-- The big-endian 16-bit word at `a` and `a + 1` (R61). -/
def Memory.word (m : Memory) (a : Nat) : Word := wordOfBytes (m.read a) (m.read (a + 1))

/-- The canonical form: addresses strictly rising and below 4096, and no cell equal to what its address reads as
unlisted. -/
abbrev Memory.wf (m : Memory) : Prop :=
  m.Pairwise (fun p q => p.1 < q.1) ∧ ∀ p ∈ m, p.1 < 4096 ∧ p.2 ≠ resetByte p.1

end Sys2Proof.Machine
end

