-- ==== Sys2Proof/Machine/Operands.lean ====
section
/-! DEFINITION. Operand forms: registers (spec/30_encoding.md R93), zero-extended immediates (R92), the shift source
(42_alu.md R168), the glyph address (43_index_memory.md R192), decimal digits (R193), pixel coordinates
(44_display.md R212), key indexes (45_timers_input.md R230). -/

namespace Sys2Proof.Machine

/-- `V[k]` (00_scope.md R12). -/
def State.getV (s : State) (k : Reg) : Byte := s.V[k.val]

/-- `V[k] <- b`: an ordinary write, VF included (10_state.md R20, R21). -/
def State.setV (s : State) (k : Reg) (b : Byte) : State := { s with V := s.V.set k.val b k.isLt }

/-- `zext_16(NNN)` (30_encoding.md R92). -/
def addrWord (nnn : Addr) : Word := nnn.setWidth 16

/-- `s <- (SHIFT_SRC = X) ? X : Y` (42_alu.md R168, R170). -/
def shiftSource (src : Config.ShiftSrc) (x y : Reg) : Reg :=
  match src with
  | .x => x
  | .y => y

/-- `GLYPH_BASE + 5 * V[X]`, the value not masked to a nibble (43_index_memory.md R192). -/
def glyphAddress (v : Byte) : Nat := glyphBase + 5 * v.toNat

/-- Hundreds, tens and units, most significant first (43_index_memory.md R193). -/
def bcdDigits (v : Byte) : List Byte :=
  [BitVec.ofNat 8 (v.toNat / 100), BitVec.ofNat 8 (v.toNat / 10 % 10), BitVec.ofNat 8 (v.toNat % 10)]

/-- `Pixel(px, py)`: the pixel of a coordinate pair, none where EDGE_MODE = clip drops it (44_display.md R212). -/
def pixelAt (edge : Config.EdgeMode) (px py : Nat) : Option (Fin 64 × Fin 32) :=
  match edge with
  | .wrap => some (⟨px % 64, Nat.mod_lt _ (by decide)⟩, ⟨py % 32, Nat.mod_lt _ (by decide)⟩)
  | .clip => if h : px < 64 ∧ py < 32 then some (⟨px, h.1⟩, ⟨py, h.2⟩) else none

/-- The bit of a sprite byte at column `col`: bit 7 is the leftmost pixel (44_display.md R213). -/
def spriteBit (b : Byte) (col : Nat) : Bool := b.getLsbD (7 - col)

/-- The pixel at column `c`, row `r` (00_scope.md R12). -/
def Display.get (d : Display) (c : Fin 64) (r : Fin 32) : Bool := (d[c.val])[r.val]

/-- `disp[c][r] <- disp[c][r] ^ 1` (44_display.md R211). -/
def Display.flip (d : Display) (c : Fin 64) (r : Fin 32) : Display :=
  Vector.set d c.val ((d[c.val]).set r.val (!d.get c r) r.isLt) c.isLt

/-- Every pixel 0 (44_display.md R210). -/
def Display.blank : Display := Vector.replicate 64 (Vector.replicate 32 false)

/-- `keys[k]` for a key index of the 16 there are, none for a value above 15 (45_timers_input.md R230). -/
def keyOf (v : Byte) : Option Key := if h : v.toNat < 16 then some ⟨v.toNat, h⟩ else none

/-- `keys[k] = 1` (10_state.md R33). -/
def keyDown (keys : KeyVec) (k : Key) : Bool := keys.getLsbD k.val

end Sys2Proof.Machine
end

