-- ==== Sys2Proof/Machine/Ops.lean ====
section
/-! DEFINITION. The operations the meanings share: the pc updates (spec/40_execution_cycle.md R123, R124), taking a
fatal error (60_exceptions.md R304, R305), the range check of a block of bytes (20_memory.md R63), writing I
(43_index_memory.md R196), the call stack (10_state.md R28), block transfers (43_index_memory.md R194, R195), drawing
(44_display.md R211). -/

namespace Sys2Proof.Machine

/-! ## Taking a fatal error -/

/-- TAKING AN ERROR: `mode <- Faulted(rec)` and nothing else (60_exceptions.md R304); `pc` still holds the address of
the instruction, or of the fetch, that raised it (R305). There is no return from it (R306): no operation of the model
leaves mode Faulted. -/
def State.takeError (s : State) (kind : ErrorKind) (word : Option Word) (info : FaultInfo) : State :=
  { s with mode := .faulted { kind := kind, pc := s.pc, word := word, info := info } }

/-- The instruction word under execution, as it stands in memory at `pc`: a handler raises before it writes anything
(R305), so it is the word that was fetched (log entry 6). -/
def State.currentWord (s : State) : Word := s.mem.word s.pc.toNat

/-- `raise E(info)` inside a handler: the record holds the word (60_exceptions.md R300). -/
def State.raise (s : State) (kind : ErrorKind) (info : FaultInfo) : State :=
  s.takeError kind (some s.currentWord) info

/-! ## The program counter -/

/-- `pc <- pc + 2`, the default advance (10_state.md R24). -/
def State.advance (s : State) : State := { s with pc := s.pc + 2 }

/-- `pc <- target`, with no further advance (10_state.md R24). -/
def State.jump (s : State) (target : Word) : State := { s with pc := target }

/-- A skip: `pc + 4` when it is taken, `pc + 2` otherwise; the skipped word is neither fetched nor decoded (41_control.md
R148). -/
def State.skipIf (s : State) (taken : Bool) : State := { s with pc := s.pc + (if taken then 4 else 2) }

/-! ## Memory blocks and the index register -/

/-- The range check of the block of `count` bytes from `first`: where one of them lies at 4096 or above, AddressRangeError
with the lowest such address, before anything is written (20_memory.md R63, 60_exceptions.md R305); otherwise `next`. For
one byte it is the check of `MemRead` and `MemWrite`; no byte is no access. -/
def State.guardRange (s : State) (first count : Nat) (next : State) : State :=
  if count > 0 ∧ first + count - 1 ≥ 4096 then s.raise .addressRangeError (.address (max first 0x1000)) else next

/-- `SetI(v)` (43_index_memory.md R196), and then what the instruction does next: AddressRangeError above 0xFFFF. -/
def State.setI (s : State) (v : Nat) (next : State → State) : State :=
  if v > 0xFFFF then s.raise .addressRangeError (.address v) else next { s with I := BitVec.ofNat 16 v }

/-- `MemWrite(a + k, 1, bs[k])` for every byte of the list, in rising order. -/
def State.storeBytes (s : State) (a : Nat) (bs : List Byte) : State := { s with mem := s.mem.writeList a bs }

/-- `V[0]` to `V[X]`. -/
def State.lowRegs (s : State) (x : Reg) : List Byte := s.V.toList.take (x.val + 1)

/-- `for i in 0 .. n-1: V[i] <- bytes at a + i` (43_index_memory.md R195). -/
def loadInto (m : Memory) (a : Nat) : Nat → Vector Byte 16 → Vector Byte 16
  | 0, v => v
  | n + 1, v => (loadInto m a n v).setIfInBounds n (m.read (a + n))

/-! ## The call stack -/

/-- A push: `stack[sp] <- a`, then sp + 1; none when sp = 16 (10_state.md R28). -/
def State.push (s : State) (a : Word) : Option State :=
  if h : s.sp.val < 16 then
    some { s with stack := s.stack.set s.sp.val a h, sp := ⟨s.sp.val + 1, by omega⟩ }
  else none

/-- A pop: sp - 1, then `stack[sp]`; none when sp = 0 (10_state.md R28). -/
def State.pop (s : State) : Option (Word × State) :=
  if h : s.sp.val = 0 then none
  else
    have := s.sp.isLt
    some (s.stack[s.sp.val - 1], { s with sp := ⟨s.sp.val - 1, by omega⟩ })

/-! ## Drawing -/

/-- What a draw changes as it goes: the display, and whether a pixel went from 1 to 0. -/
structure Canvas where
  disp    : Display
  collide : Bool
  deriving DecidableEq, Repr

/-- One bit of a sprite byte: a 1 bit flips its pixel, if it is visible, and a pixel that was 1 collides (44_display.md
R211). -/
def drawBit (edge : Config.EdgeMode) (b : Byte) (px py : Nat) (cv : Canvas) (col : Nat) : Canvas :=
  if spriteBit b col then
    match pixelAt edge (px + col) py with
    | some (c, r) => { disp := cv.disp.flip c r, collide := cv.collide || cv.disp.get c r }
    | none => cv
  else cv

/-- One sprite byte: its eight columns from the left (44_display.md R211, R213). -/
def drawRow (edge : Config.EdgeMode) (px py : Nat) (b : Byte) (cv : Canvas) : Canvas :=
  (List.range 8).foldl (drawBit edge b px py) cv

/-- The rows of a sprite, byte k at row `py + k` (44_display.md R211, R213). -/
def drawSprite (edge : Config.EdgeMode) (px : Nat) : Nat → List Byte → Canvas → Canvas
  | _, [], cv => cv
  | py, b :: bs, cv => drawSprite edge px (py + 1) bs (drawRow edge px py b cv)

end Sys2Proof.Machine
end

