-- ==== Sys2Proof/Machine/Construct.lean ====
section
/-! DEFINITION. Construction, the only reset (spec/70_reset_and_hazards.md R340 to R343). -/

namespace Sys2Proof.Machine

/-- `Construct(img)` (R341): the reset state with the image at 0x200, verbatim; LoadError when it is longer than
4096 - 0x200 = 3584 bytes (R342). -/
def construct (img : List Byte) : Result :=
  if img.length > 4096 - 0x200 then .fault (.loadError img.length)
  else .next (State.reset.storeBytes 0x200 img)

end Sys2Proof.Machine
end

