-- ==== Sys2Proof/Machine/Flags.lean ====
section
/-! DEFINITION. Results and flags of the 8-bit arithmetic (spec/42_alu.md R172): sums and differences computed exactly
and reduced mod 256, and the values VF takes. -/

namespace Sys2Proof.Machine

/-- `(a + b) mod 256` (42_alu.md R161, R166). -/
def sumByte (a b : Byte) : Byte := BitVec.ofNat 8 ((a.toNat + b.toNat) % 256)

/-- `(a - b) mod 256`, computed over the integers: `a - b + 256` when `a < b` (42_alu.md R167). -/
def diffByte (a b : Byte) : Byte := BitVec.ofNat 8 (((a.toNat : Int) - (b.toNat : Int)) % 256).toNat

/-- A flag's value as a byte: 1 or 0. -/
def flagByte (b : Bool) : Byte := if b then 1 else 0

/-- `(s > 255) ? 1 : 0`, the carry of a sum (42_alu.md R166). -/
def carryFlag (a b : Byte) : Byte := flagByte (decide (a.toNat + b.toNat > 255))

/-- `(a < b) ? 0 : 1`, NOT borrow of a difference (42_alu.md R167, R169). -/
def notBorrowFlag (a b : Byte) : Byte := flagByte (!decide (a.toNat < b.toNat))

/-- `v & 1`, the bit SHR shifts out (42_alu.md R168). -/
def shrFlag (v : Byte) : Byte := v &&& 1

/-- `(v >> 7) & 1`, the bit SHL shifts out (42_alu.md R170). -/
def shlFlag (v : Byte) : Byte := (v >>> 7) &&& 1

/-- `v >> 1` (42_alu.md R168). -/
def shrByte (v : Byte) : Byte := v >>> 1

/-- `(v << 1) mod 256` (42_alu.md R170). -/
def shlByte (v : Byte) : Byte := v <<< 1

end Sys2Proof.Machine
end

