-- ==== Sys2Proof/Machine/Alu.lean ====
section
/-! DEFINITION. Register loads, the register-register group, the random byte (spec/42_alu.md R160 to R172). Every
instruction here ends with `pc <- pc + 2`. -/

namespace Sys2Proof.Machine

/-- A result written to V[X], and the default advance. -/
def State.setResult (s : State) (x : Reg) (b : Byte) : State := (s.setV x b).advance

/-- A result written to V[X], then the flag to VF (written last: R166, R167, R169), and the default advance. -/
def State.setResultFlag (s : State) (x : Reg) (b flag : Byte) : State := ((s.setV x b).setV VF flag).advance

/-- A shift of register `src` into V[X]: VF is written first, and the shift reads the register file again (R168, R170). -/
def State.shiftInto (s : State) (src x : Reg) (flag result : Byte → Byte) : State :=
  let t := s.setV VF (flag (s.getV src))
  (t.setV x (result (t.getV src))).advance

/-- LD Vx, byte (R160). -/
def execLdByte (x : Reg) (nn : Byte) (s : State) : Result := .next (s.setResult x nn)

/-- ADD Vx, byte (R161): no flag. -/
def execAddByte (x : Reg) (nn : Byte) (s : State) : Result := .next (s.setResult x (sumByte (s.getV x) nn))

/-- LD Vx, Vy (R162). -/
def execLdReg (x y : Reg) (s : State) : Result := .next (s.setResult x (s.getV y))

/-- OR Vx, Vy (R163): VF is not written. -/
def execOrReg (x y : Reg) (s : State) : Result := .next (s.setResult x (s.getV x ||| s.getV y))

/-- AND Vx, Vy (R164): VF is not written. -/
def execAndReg (x y : Reg) (s : State) : Result := .next (s.setResult x (s.getV x &&& s.getV y))

/-- XOR Vx, Vy (R165): VF is not written. -/
def execXorReg (x y : Reg) (s : State) : Result := .next (s.setResult x (s.getV x ^^^ s.getV y))

/-- ADD Vx, Vy (R166): both operands are read before either write. -/
def execAddReg (x y : Reg) (s : State) : Result :=
  .next (s.setResultFlag x (sumByte (s.getV x) (s.getV y)) (carryFlag (s.getV x) (s.getV y)))

/-- SUB Vx, Vy (R167): V[X] - V[Y]. -/
def execSubReg (x y : Reg) (s : State) : Result :=
  .next (s.setResultFlag x (diffByte (s.getV x) (s.getV y)) (notBorrowFlag (s.getV x) (s.getV y)))

/-- SHR Vx {, Vy} (R168). -/
def execShr (x y : Reg) (s : State) : Result := .next (s.shiftInto (shiftSource shiftSrc x y) x shrFlag shrByte)

/-- SUBN Vx, Vy (R169): V[Y] - V[X]. -/
def execSubn (x y : Reg) (s : State) : Result :=
  .next (s.setResultFlag x (diffByte (s.getV y) (s.getV x)) (notBorrowFlag (s.getV y) (s.getV x)))

/-- SHL Vx {, Vy} (R170). -/
def execShl (x y : Reg) (s : State) : Result := .next (s.shiftInto (shiftSource shiftSrc x y) x shlFlag shlByte)

/-- The byte r of the cycle under way (40_execution_cycle.md R121): the one the host's event supplied, or the next free
value (log entry 2). -/
def State.randomByte (s : State) : Byte := s.rand.getD (Config.randByte s.draws)

/-- The state after r is consumed: a free value is drawn once. -/
def State.afterRandom (s : State) : State :=
  match s.rand with
  | some _ => s
  | none => { s with draws := s.draws + 1 }

/-- RND Vx, byte (R171): `r & NN`. -/
def execRnd (x : Reg) (nn : Byte) (s : State) : Result := .next (s.afterRandom.setResult x (s.randomByte &&& nn))

end Sys2Proof.Machine
end

