-- ==== Sys2Proof/Machine/Control.lean ====
section
/-! DEFINITION. Control transfer: RET, JP, CALL, the skips on registers, JP V0 (spec/41_control.md R140 to R150). `pc` is
the address of the instruction itself (40_execution_cycle.md R124). -/

namespace Sys2Proof.Machine

/-- RET (R140): StackUnderflow when the stack is empty; otherwise the popped address plus 2. -/
def execRet (s : State) : Result :=
  match s.pop with
  | none => .next (s.raise .stackUnderflow (.sp 0))
  | some (a, t) => .next (t.jump (a + 2))

/-- JP addr (R141). -/
def execJp (nnn : Addr) (s : State) : Result := .next (s.jump (addrWord nnn))

/-- CALL addr (R142): the CALL's own address is pushed; StackOverflow when the stack is full. -/
def execCall (nnn : Addr) (s : State) : Result :=
  match s.push s.pc with
  | none => .next (s.raise .stackOverflow (.sp 16))
  | some t => .next (t.jump (addrWord nnn))

/-- SE Vx, byte (R143). -/
def execSeByte (x : Reg) (nn : Byte) (s : State) : Result := .next (s.skipIf (s.getV x == nn))

/-- SNE Vx, byte (R144). -/
def execSneByte (x : Reg) (nn : Byte) (s : State) : Result := .next (s.skipIf (s.getV x != nn))

/-- SE Vx, Vy (R145). -/
def execSeReg (x y : Reg) (s : State) : Result := .next (s.skipIf (s.getV x == s.getV y))

/-- SNE Vx, Vy (R146). -/
def execSneReg (x y : Reg) (s : State) : Result := .next (s.skipIf (s.getV x != s.getV y))

/-- JP V0, addr (R147): the sum is not masked to 12 bits. -/
def execJpV0 (nnn : Addr) (s : State) : Result := .next (s.jump (addrWord nnn + (s.getV 0).setWidth 16))

end Sys2Proof.Machine
end

