-- ==== Sys2Proof/Machine/Draw.lean ====
section
/-! DEFINITION. The display instructions (spec/44_display.md R210 to R213). -/

namespace Sys2Proof.Machine

/-- CLS (R210): every pixel 0, and redraw set even when nothing changed. -/
def execCls (s : State) : Result := .next { s with disp := Display.blank, redraw := true }.advance

/-- What a draw of `n` bytes from I leaves on the display: coordinates and sprite bytes are read before anything is
written (R211). -/
def State.drawn (s : State) (edge : Config.EdgeMode) (x y : Reg) (n : Nat) : Canvas :=
  drawSprite edge (s.getV x).toNat (s.getV y).toNat (s.mem.readList s.I.toNat n) { disp := s.disp, collide := false }

/-- DRW Vx, Vy, nibble (R211): VF, the collision, is written last. -/
def execDrw (x y : Reg) (n : Nibble) (s : State) : Result :=
  let cv := s.drawn edgeMode x y n.toNat
  .next (s.guardRange s.I.toNat n.toNat
    ({ s with disp := cv.disp, redraw := true }.setV VF (flagByte cv.collide)).advance)

end Sys2Proof.Machine
end

