-- ==== Sys2Proof/Machine/Index.lean ====
section
/-! DEFINITION. The index register and the memory transfers (spec/43_index_memory.md R190 to R196). Every instruction
here ends with `pc <- pc + 2`. -/

namespace Sys2Proof.Machine

/-- LD I, addr (R190). -/
def execLdI (nnn : Addr) (s : State) : Result := .next (s.setI nnn.toNat State.advance)

/-- ADD I, Vx (R191): VF is not written; AddressRangeError above 0xFFFF. -/
def execAddI (x : Reg) (s : State) : Result := .next (s.setI (s.I.toNat + (s.getV x).toNat) State.advance)

/-- LD F, Vx (R192). -/
def execLdF (x : Reg) (s : State) : Result := .next (s.setI (glyphAddress (s.getV x)) State.advance)

/-- LD B, Vx (R193): three decimal digits at I, I + 1 and I + 2; I is not changed. -/
def execLdB (x : Reg) (s : State) : Result :=
  .next (s.guardRange s.I.toNat 3 (s.storeBytes s.I.toNat (bcdDigits (s.getV x))).advance)

/-- LD [I], Vx (R194): V[0] to V[X] at I to I + X, and I advanced past them. -/
def execStoreRegs (x : Reg) (s : State) : Result :=
  .next (s.guardRange s.I.toNat (x.val + 1)
    ((s.storeBytes s.I.toNat (s.lowRegs x)).setI (s.I.toNat + x.val + 1) State.advance))

/-- LD Vx, [I] (R195): V[0] to V[X] from I to I + X, and I advanced past them. -/
def execLoadRegs (x : Reg) (s : State) : Result :=
  .next (s.guardRange s.I.toNat (x.val + 1)
    ({ s with V := loadInto s.mem s.I.toNat (x.val + 1) s.V }.setI (s.I.toNat + x.val + 1) State.advance))

end Sys2Proof.Machine
end

