-- ==== Sys2Proof/Machine/TimersInput.lean ====
section
/-! DEFINITION. Key skips, timer transfers and the wait for a key (spec/45_timers_input.md R230 to R236). The completion
of a wait is an effect of the Keys event (Machine/Events.lean). -/

namespace Sys2Proof.Machine

/-- A skip on a key: KeyRangeError when V[X] names none of the 16 keys (R230, R231). -/
def State.skipOnKey (s : State) (x : Reg) (taken : Bool → Bool) : State :=
  match keyOf (s.getV x) with
  | none => s.raise .keyRangeError (.key (s.getV x).toNat)
  | some k => s.skipIf (taken (keyDown s.keys k))

/-- SKP Vx (R230). -/
def execSkp (x : Reg) (s : State) : Result := .next (s.skipOnKey x fun down => down)

/-- SKNP Vx (R231). -/
def execSknp (x : Reg) (s : State) : Result := .next (s.skipOnKey x fun down => !down)

/-- LD Vx, DT (R232). -/
def execLdVxDT (x : Reg) (s : State) : Result := .next (s.setV x s.DT).advance

/-- LD Vx, K (R233): the mode changes, pc does not. -/
def execLdVxK (x : Reg) (s : State) : Result := .next { s with mode := .waitingForKey x }

/-- LD DT, Vx (R234). -/
def execLdDTVx (x : Reg) (s : State) : Result := .next { s with DT := s.getV x }.advance

/-- LD ST, Vx (R235). -/
def execLdSTVx (x : Reg) (s : State) : Result := .next { s with ST := s.getV x }.advance

end Sys2Proof.Machine
end

