-- ==== Sys2Proof/Machine/Events.lean ====
section
/-! DEFINITION. The host's events other than Cycle (spec/60_exceptions.md R310 to R312, R320 to R324), the completion of
a wait (45_timers_input.md R236), and the outputs the host reads (R326). -/

namespace Sys2Proof.Machine

/-- A timer one tick later: decremented, floor at 0 (R310). -/
def tickTimer (t : Byte) : Byte := BitVec.ofNat 8 (t.toNat - 1)

/-- The Tick event (R310): both timers, in any mode but Faulted. -/
def State.tick (s : State) : State :=
  match s.mode with
  | .faulted _ => s
  | .running | .waitingForKey _ => { s with DT := tickTimer s.DT, ST := tickTimer s.ST }

/-- `sound_active`: ST is not 0 (R311). -/
def State.soundActive (s : State) : Bool := s.ST != 0

/-- `cue`, the output an event emits: a Tick whose ST was 1 before it, in any mode but Faulted, and no other event
(R310, R312). It changes no state (log entry 13). -/
def State.cue (s : State) : HostEvent → Bool
  | .tick =>
    match s.mode with
    | .faulted _ => false
    | .running | .waitingForKey _ => s.ST == 1
  | .cycle _ | .keys _ | .clearRedraw => false

/-- The indexes of the 16 keys, in rising order. -/
def allKeys : List Key := [0, 1, 2, 3, 4, 5, 6, 7, 8, 9, 10, 11, 12, 13, 14, 15]

/-- `P`: the keys that went from released to pressed (45_timers_input.md R236). -/
def newlyPressed (old new : KeyVec) : List Key := allKeys.filter fun k => keyDown new k && !keyDown old k

/-- WAIT_PICK: the key that completes the wait, any member of the candidates, by the free value of a draw (R236, log
entry 3); none when there is no candidate. -/
def waitPick (draw : Nat) : List Key → Option Key
  | [] => none
  | [k] => some k
  | k :: ks => (k :: ks)[Config.waitPick draw % (k :: ks).length]?

/-- The completion of a wait by key `k`: V[x] <- k, pc + 2, mode Running (R236). -/
def State.completeWait (s : State) (x : Reg) (k : Key) : State :=
  { (s.setV x (BitVec.ofNat 8 k.val)).advance with mode := .running, draws := s.draws + 1 }

/-- The Keys event (R323): the key vector replaces the input state, and while the core waits a released-to-pressed
transition completes the wait; in mode Faulted it does nothing. -/
def State.setKeys (s : State) (v : KeyVec) : State :=
  match s.mode with
  | .faulted _ => s
  | .running => { s with keys := v }
  | .waitingForKey x =>
    match waitPick s.draws (newlyPressed s.keys v) with
    | none => { s with keys := v }
    | some k => { s with keys := v }.completeWait x k

/-- The ClearRedraw event, in every mode (R324). -/
def State.clearRedraw (s : State) : State := { s with redraw := false }

/-- What the host reads between events (R326); `cue` is `State.cue`. -/
structure Outputs where
  disp        : Display
  redraw      : Bool
  soundActive : Bool
  mode        : Mode
  deriving DecidableEq, Repr

/-- The outputs of a state (R326). -/
def State.outputs (s : State) : Outputs where
  disp := s.disp
  redraw := s.redraw
  soundActive := s.soundActive
  mode := s.mode

/-- The run has ended in error exactly when its last state is Faulted (R328). -/
def State.isFaulted (s : State) : Bool :=
  match s.mode with
  | .faulted _ => true
  | .running | .waitingForKey _ => false

end Sys2Proof.Machine
end

