-- ==== Sys2Proof/Machine/Cycle.lean ====
section
/-! DEFINITION. The Cycle event: fetch check, fetch, decode, dispatch (spec/40_execution_cycle.md R121, R122, R125,
R126), and the delivery of any host event (60_exceptions.md R320). -/

namespace Sys2Proof.Machine

/-- `FetchCheck(pc)` (R122): the range first, then, where STRICT_PC, the invariant (60_exceptions.md R303); none when the
fetch may go on. -/
def fetchCheck (strict : Bool) (pc : Nat) : Option (ErrorKind × FaultInfo) :=
  if pc > 0xFFE then some (.addressRangeError, .address (max pc 0x1000))
  else if strict && (pc % 2 == 1 || decide (pc < 0x200)) then some (.pcInvariantError, .none)
  else none

/-- One instruction at pc, in mode Running (R121). An error of the fetch records no word, an error of the dispatch the
word fetched (60_exceptions.md R300). -/
def State.runInstruction (s : State) : Result :=
  match fetchCheck strictPc s.pc.toNat with
  | some (kind, info) => .next (s.takeError kind none info)
  | none =>
    match decode s.currentWord with
    | .error _ => .next (s.takeError .decodeError (some s.currentWord) .none)
    | .ok i => exec i s

/-- A Cycle: one instruction in mode Running, no change while waiting (R125) or faulted (R126). -/
def State.cycle (s : State) : Result :=
  match s.mode with
  | .running => s.runInstruction
  | .waitingForKey _ => .next s
  | .faulted _ => .next s

/-- An outcome with the next state changed. -/
def mapNext (f : State → State) : Result → Result
  | .next t => .next (f t)
  | .fault r => .fault r
  | .refused r => .refused r

/-- One host event (60_exceptions.md R320). The byte of `Cycle(r)` is there for that cycle only (R321). -/
def State.deliver (s : State) : HostEvent → Result
  | .cycle r => mapNext (fun t => { t with rand := s.rand }) ({ s with rand := some r }.cycle)
  | .tick => .next s.tick
  | .keys v => .next (s.setKeys v)
  | .clearRedraw => .next s.clearRedraw

/-- Whether an instruction can be fetched at `pc`. -/
def fetchable (pc : Word) : Bool := (fetchCheck strictPc pc.toNat).isNone

/-- A word put where the next cycle fetches it: the core runs, no event is listed before that cycle, and pc stays if an
instruction can be fetched there, and is the entry point 0x200 otherwise (log entries 11 and 17). -/
def State.placeWord (s : State) (w : Word) : State :=
  let pc := if fetchable s.pc then s.pc else 0x200
  { s with
    mem := s.mem.writeList pc.toNat [hiByte w, loByte w]
    pc := pc
    mode := .running
    inputs := [] }

end Sys2Proof.Machine
end

