-- ==== Sys2Proof/Machine/Step.lean ====
section
/-! DEFINITION. One step of the machine: the next host event (spec/40_execution_cycle.md R120, 60_exceptions.md R320). -/

namespace Sys2Proof.Machine

/-- The oldest event of `inputs` is delivered; when none is listed the host issues a Cycle, whose random byte is a free
value (log entries 1 and 2). -/
def step (s : State) : Host.Outcome State Fault Refusal :=
  match s.inputs with
  | [] => s.cycle
  | e :: rest => { s with inputs := rest }.deliver e

/-- `s` with the instruction word of `w` where step fetches its next instruction, so that the very next step runs it. -/
def State.withFetchWord (s : State) (nbits w : Nat) : State := s.placeWord (tableWord nbits w)

end Sys2Proof.Machine
end

