-- ==== Sys2Proof/Safety.lean ====
section
/-! DEFINITION. What counts as a safe run, in the terms the statements use: the invariant of every state a run reaches,
and what it means that a state part is unchanged. -/

namespace Sys2Proof.Machine

/-- A pc that passes the fetch check with STRICT_PC: even, and in [0x200, 0xFFE] (spec/10_state.md R25). -/
abbrev PcFetchable (pc : Word) : Prop := 0x200 ≤ pc.toNat ∧ pc.toNat ≤ 0xFFE ∧ pc.toNat % 2 = 0

/-- The word and the info a fault record holds for its kind (60_exceptions.md R300): LoadError and UnwrittenRead are in no
record; the pc alone tells a PcInvariantError; a fetch records no word. -/
def FaultRecord.sound (r : FaultRecord) : Bool :=
  match r.kind, r.info with
  | .decodeError, .none => r.word.isSome
  | .stackOverflow, .sp n => n == 16 && r.word.isSome
  | .stackUnderflow, .sp n => n == 0 && r.word.isSome
  | .addressRangeError, .address a => decide (0x1000 ≤ a)
  | .pcInvariantError, .none => r.word.isNone
  | .keyRangeError, .key k => decide (16 ≤ k ∧ k ≤ 255) && r.word.isSome
  | _, _ => false

/-- What the mode says of the rest of the state: a wait stands at its instruction (45_timers_input.md R233), and a fault
record holds the pc, which no event changes afterwards (60_exceptions.md R305, R306). -/
def State.modeSound (s : State) : Bool :=
  match s.mode with
  | .running => true
  | .waitingForKey _ => decide (PcFetchable s.pc)
  | .faulted rec => rec.pc == s.pc && rec.sound

/-- THE INVARIANT: memory is in its canonical form; pc is at most 0x10FE (10_state.md R23); every stack entry in use is
an address an instruction was fetched at (10_state.md R37); the mode and the fault record are sound. -/
abbrev State.Inv (s : State) : Prop :=
  s.mem.wf ∧ s.pc.toNat ≤ 0x10FE ∧ (∀ j : Fin 16, j.val < s.sp.val → PcFetchable s.stack[j.val]) ∧
    s.modeSound = true

/-- A run is safe as long as its state is not Faulted (60_exceptions.md R328). -/
def State.Safe (s : State) : Prop := s.isFaulted = false

/-- The word an instruction fetch at pc reads: "MemRead(pc,1) * 256 + MemRead(pc+1,1)" (20_memory.md R61). -/
def State.fetchedWord (s : State) : Word :=
  BitVec.ofNat 16 ((s.mem.read s.pc.toNat).toNat * 256 + (s.mem.read (s.pc.toNat + 1)).toNat)

/-- THE NEXT EVENT IS A CYCLE: the oldest listed event is a `Cycle(r)` (60_exceptions.md R320), `rest` the events after it;
or none is listed, and then the host issues one (log entry 1). -/
def State.CycleNext (s : State) (rest : List HostEvent) : Prop :=
  (s.inputs = [] ∧ rest = []) ∨ ∃ r : Byte, s.inputs = .cycle r :: rest

/-- `s` after a fatal error: the mode holds the record, and nothing else has changed (60_exceptions.md R304). -/
def State.faultedWith (s : State) (kind : ErrorKind) (word : Option Word) (info : FaultInfo) : State :=
  { s with mode := .faulted { kind := kind, pc := s.pc, word := word, info := info } }

/-- The registers an instruction may write: its destination, VF where it is a flag (10_state.md R21), and the block of
LD Vx,[I]. -/
def writesReg (i : Instr) (k : Reg) : Prop :=
  match i with
  | .ldByte x _ | .addByte x _ | .ldReg x _ | .orReg x _ | .andReg x _ | .xorReg x _ | .rnd x _ | .ldVxDT x => k = x
  | .addReg x _ | .subReg x _ | .shr x _ | .subn x _ | .shl x _ => k = x ∨ k = VF
  | .drw _ _ _ => k = VF
  | .loadRegs x => k ≤ x
  | .cls | .ret | .jp _ | .call _ | .seByte _ _ | .sneByte _ _ | .seReg _ _ | .sneReg _ _ | .ldI _ | .jpV0 _ | .skp _
  | .sknp _ | .ldVxK _ | .ldDTVx _ | .ldSTVx _ | .addI _ | .ldF _ | .ldB _ | .storeRegs _ => False

/-- The addresses an instruction stores to, in the state it runs in (20_memory.md R65): three from I for LD B, X + 1 from
I for LD [I],Vx, none for any other. -/
def storesTo (i : Instr) (s : State) (a : Nat) : Prop :=
  match i with
  | .ldB _ => s.I.toNat ≤ a ∧ a < s.I.toNat + 3
  | .storeRegs x => s.I.toNat ≤ a ∧ a < s.I.toNat + (x.val + 1)
  | .cls | .ret | .jp _ | .call _ | .seByte _ _ | .sneByte _ _ | .seReg _ _ | .ldByte _ _ | .addByte _ _ | .ldReg _ _
  | .orReg _ _ | .andReg _ _ | .xorReg _ _ | .addReg _ _ | .subReg _ _ | .shr _ _ | .subn _ _ | .shl _ _ | .sneReg _ _
  | .ldI _ | .jpV0 _ | .rnd _ _ | .drw _ _ _ | .skp _ | .sknp _ | .ldVxDT _ | .ldVxK _ | .ldDTVx _ | .ldSTVx _ | .addI _
  | .ldF _ | .loadRegs _ => False

/-- The pc values an instruction that raises nothing may leave (40_execution_cycle.md R123): pc + 2, pc + 4 for a skip,
a target, or pc itself for LD Vx,K. -/
def nextPc (i : Instr) (s : State) (p : Word) : Prop :=
  match i with
  | .ret => ∃ j : Fin 16, s.sp.val = j.val + 1 ∧ p = s.stack[j.val] + 2
  | .jp nnn | .call nnn => p.toNat = nnn.toNat
  | .jpV0 nnn => p.toNat = nnn.toNat + (s.getV 0).toNat
  | .seByte _ _ | .sneByte _ _ | .seReg _ _ | .sneReg _ _ | .skp _ | .sknp _ => p = s.pc + 2 ∨ p = s.pc + 4
  | .ldVxK _ => p = s.pc
  | .cls | .ldByte _ _ | .addByte _ _ | .ldReg _ _ | .orReg _ _ | .andReg _ _ | .xorReg _ _ | .addReg _ _ | .subReg _ _
  | .shr _ _ | .subn _ _ | .shl _ _ | .ldI _ | .rnd _ _ | .drw _ _ _ | .ldVxDT _ | .ldDTVx _ | .ldSTVx _ | .addI _
  | .ldF _ | .ldB _ | .storeRegs _ | .loadRegs _ => p = s.pc + 2

/-- A 1 bit of the sprite of `n` bytes at I lands on the pixel at column `c`, row `r`, coordinates taken mod 64 and
mod 32 (44_display.md R211, R212 with EDGE_MODE = wrap, R213). -/
def spriteCovers (s : State) (x y : Reg) (n : Nat) (c : Fin 64) (r : Fin 32) : Prop :=
  ∃ row < n, ∃ col < 8, (s.mem.read (s.I.toNat + row)).getLsbD (7 - col) = true ∧
    ((s.getV x).toNat + col) % 64 = c.val ∧ ((s.getV y).toNat + row) % 32 = r.val

end Sys2Proof.Machine
end

