-- ==== Sys2Proof/Certificates/Slice0/Obligations.lean ====
section
/-! DEFINITION. The statements for the provers. Each says which rule of spec/ it formalises. "t = { s with … }" says that
everything not named there is as before: every register, flag, timer, pixel, stack entry and byte of memory. -/

open Sys2Proof Sys2Proof.Machine

/-! ## Encoding -/

/-- Decoding the bytes of any instruction, whatever follows them, gives the instruction back with every operand
(30_encoding.md R90 to R98, R103). -/
def Obligations.DecodeOfEncodeIsTheInstruction : Prop :=
  ∀ (i : Instr) (rest : List Byte), decodeBytes (encodeBytes i ++ rest) = .ok (i, rest)

/-- The ignored bits of R99, and only they, are ignored (SHIFT_SRC = X: decision D3): a word that decodes to `i` agrees
with i's canonical word in every bit i does not ignore, and changing ignored bits changes neither the dispatch nor any
operand a handler uses (Y of SHR and SHL, which is kept as an operand, is such an unused one: the effect is the same). -/
def Obligations.ExactlyTheIgnoredBitsAreIgnored : Prop :=
  (∀ (w : Word) (i : Instr), decode w = .ok i → w &&& ~~~ ignoredBits i = encode i &&& ~~~ ignoredBits i) ∧
  (∀ (w m : Word) (i : Instr), decode w = .ok i →
    ∃ j : Instr, decode (w ^^^ (m &&& ignoredBits i)) = .ok j ∧ ∀ s : State, exec j s = exec i s)

/-- The illegal words are exactly those R100 lists (log entry 16), and a Cycle that fetches one, listed with whatever byte
or issued when no event is listed (log entry 1), raises DecodeError with the pc and the word, and changes nothing else. -/
def Obligations.IllegalWordsAreThoseListedAndRaiseDecodeError : Prop :=
  (∀ w : Word, (∃ r, decode w = .error r) ↔
    (w.toNat / 0x1000 = 0x0 ∧ w.toNat % 16 ≠ 0x0 ∧ w.toNat % 16 ≠ 0xE) ∨
    (w.toNat / 0x1000 = 0x8 ∧ ((0x8 ≤ w.toNat % 16 ∧ w.toNat % 16 ≤ 0xD) ∨ w.toNat % 16 = 0xF)) ∨
    (w.toNat / 0x1000 = 0xE ∧ w.toNat % 256 ≠ 0x9E ∧ w.toNat % 256 ≠ 0xA1) ∨
    (w.toNat / 0x1000 = 0xF ∧
      w.toNat % 256 ∉ [0x07, 0x0A, 0x15, 0x18, 0x1E, 0x29, 0x33, 0x55, 0x65])) ∧
  (∀ (s : State) (rest : List HostEvent), s.CycleNext rest → s.mode = .running → PcFetchable s.pc →
    (∃ r, decode s.fetchedWord = .error r) →
    step s = .next ({ s with inputs := rest }.faultedWith .decodeError (some s.fetchedWord) .none))

/-- Words written out from the encodings of R94 to R98 and from 95_test_vectors.md (W9, W10, section 2.1) decode to the
instructions they stand for. -/
def Obligations.SampleWordsDecode : Prop :=
  decode 0x00E0#16 = .ok .cls ∧ decode 0x0120#16 = .ok .cls ∧ decode 0x0FFE#16 = .ok .ret ∧
  decode 0x2300#16 = .ok (.call 0x300#12) ∧ decode 0x5121#16 = .ok (.seReg 1 2) ∧
  decode 0x6A2B#16 = .ok (.ldByte 10 0x2B#8) ∧ decode 0x8125#16 = .ok (.subReg 1 2) ∧
  decode 0x8127#16 = .ok (.subn 1 2) ∧ decode 0xABCD#16 = .ok (.ldI 0xBCD#12) ∧
  decode 0xD7A3#16 = .ok (.drw 7 10 3#4) ∧ decode 0xE59E#16 = .ok (.skp 5) ∧ decode 0xF10A#16 = .ok (.ldVxK 1) ∧
  decode 0xF365#16 = .ok (.loadRegs 3)

/-- EVERY ENCODING OF THE TABLES, with every value of its operands and of its ignored bits (30_encoding.md R94 to R99),
decodes to its instruction. The opcode numbers are general knowledge by the spec's own words (93 G1, log entry 16); the
ignored bits are its decisions D2 and D26. -/
def Obligations.EveryEncodingOfTheTablesDecodes : Prop :=
  ∀ (x y : Reg) (n : Nibble) (nn : Byte) (nnn : Addr),
    decode ((0x0#4 ++ nn) ++ 0x0#4) = .ok .cls ∧ decode ((0x0#4 ++ nn) ++ 0xE#4) = .ok .ret ∧
    decode (0x1#4 ++ nnn) = .ok (.jp nnn) ∧ decode (0x2#4 ++ nnn) = .ok (.call nnn) ∧
    decode ((0x3#4 ++ regBits x) ++ nn) = .ok (.seByte x nn) ∧
    decode ((0x4#4 ++ regBits x) ++ nn) = .ok (.sneByte x nn) ∧
    decode ((0x5#4 ++ regBits x) ++ (regBits y ++ n)) = .ok (.seReg x y) ∧
    decode ((0x6#4 ++ regBits x) ++ nn) = .ok (.ldByte x nn) ∧
    decode ((0x7#4 ++ regBits x) ++ nn) = .ok (.addByte x nn) ∧
    decode ((0x8#4 ++ regBits x) ++ (regBits y ++ 0x0#4)) = .ok (.ldReg x y) ∧
    decode ((0x8#4 ++ regBits x) ++ (regBits y ++ 0x1#4)) = .ok (.orReg x y) ∧
    decode ((0x8#4 ++ regBits x) ++ (regBits y ++ 0x2#4)) = .ok (.andReg x y) ∧
    decode ((0x8#4 ++ regBits x) ++ (regBits y ++ 0x3#4)) = .ok (.xorReg x y) ∧
    decode ((0x8#4 ++ regBits x) ++ (regBits y ++ 0x4#4)) = .ok (.addReg x y) ∧
    decode ((0x8#4 ++ regBits x) ++ (regBits y ++ 0x5#4)) = .ok (.subReg x y) ∧
    decode ((0x8#4 ++ regBits x) ++ (regBits y ++ 0x6#4)) = .ok (.shr x y) ∧
    decode ((0x8#4 ++ regBits x) ++ (regBits y ++ 0x7#4)) = .ok (.subn x y) ∧
    decode ((0x8#4 ++ regBits x) ++ (regBits y ++ 0xE#4)) = .ok (.shl x y) ∧
    decode ((0x9#4 ++ regBits x) ++ (regBits y ++ n)) = .ok (.sneReg x y) ∧
    decode (0xA#4 ++ nnn) = .ok (.ldI nnn) ∧ decode (0xB#4 ++ nnn) = .ok (.jpV0 nnn) ∧
    decode ((0xC#4 ++ regBits x) ++ nn) = .ok (.rnd x nn) ∧
    decode ((0xD#4 ++ regBits x) ++ (regBits y ++ n)) = .ok (.drw x y n) ∧
    decode ((0xE#4 ++ regBits x) ++ 0x9E#8) = .ok (.skp x) ∧ decode ((0xE#4 ++ regBits x) ++ 0xA1#8) = .ok (.sknp x) ∧
    decode ((0xF#4 ++ regBits x) ++ 0x07#8) = .ok (.ldVxDT x) ∧ decode ((0xF#4 ++ regBits x) ++ 0x0A#8) = .ok (.ldVxK x) ∧
    decode ((0xF#4 ++ regBits x) ++ 0x15#8) = .ok (.ldDTVx x) ∧
    decode ((0xF#4 ++ regBits x) ++ 0x18#8) = .ok (.ldSTVx x) ∧
    decode ((0xF#4 ++ regBits x) ++ 0x1E#8) = .ok (.addI x) ∧ decode ((0xF#4 ++ regBits x) ++ 0x29#8) = .ok (.ldF x) ∧
    decode ((0xF#4 ++ regBits x) ++ 0x33#8) = .ok (.ldB x) ∧
    decode ((0xF#4 ++ regBits x) ++ 0x55#8) = .ok (.storeRegs x) ∧
    decode ((0xF#4 ++ regBits x) ++ 0x65#8) = .ok (.loadRegs x)

/-! ## The cycle -/

/-- A step whose next event is a Cycle runs the instruction that the two bytes at pc decode to, and adds nothing: with no
event listed (log entry 1) it is exec at that very state; with a listed `Cycle(r)` it is exec with r at hand for that cycle only, and
the event taken off the list (40_execution_cycle.md R121; 20_memory.md R61). -/
def Obligations.StepRunsTheDecodedInstruction : Prop :=
  (∀ (s : State) (i : Instr), s.inputs = [] → s.mode = .running → PcFetchable s.pc → decode s.fetchedWord = .ok i →
    step s = exec i s) ∧
  (∀ (s : State) (i : Instr) (r : Byte) (rest : List HostEvent), s.inputs = .cycle r :: rest → s.mode = .running →
    PcFetchable s.pc → decode s.fetchedWord = .ok i →
    ∃ t, exec i { s with inputs := rest, rand := some r } = .next t ∧ step s = .next { t with rand := s.rand })

/-- The fetch check (40_execution_cycle.md R122, decision D9), of every Cycle, listed or issued when no event is listed (log
entry 1): above 0xFFE an AddressRangeError, reported first (R303), else at an odd pc or one below 0x200 a
PcInvariantError; no word is recorded and nothing else changes. -/
def Obligations.FetchCheckErrors : Prop :=
  ∀ (s : State) (rest : List HostEvent), s.CycleNext rest → s.mode = .running →
    (0xFFE < s.pc.toNat →
      step s = .next ({ s with inputs := rest }.faultedWith .addressRangeError none (.address (max s.pc.toNat 0x1000)))) ∧
    (s.pc.toNat ≤ 0xFFE → (s.pc.toNat % 2 = 1 ∨ s.pc.toNat < 0x200) →
      step s = .next ({ s with inputs := rest }.faultedWith .pcInvariantError none .none))

/-- "every handler rule … ends with exactly one pc write (pc + 2, pc + 4, or a target), except LD Vx,K, which leaves pc
unchanged and enters WaitingForKey … No step outside the handler adds to pc" (40_execution_cycle.md R123), of every Cycle,
listed or issued when no event is listed (log entry 1). That no other instruction leaves mode Running is read from the
handlers' rules (45_timers_input.md R233 alone enters a wait). -/
def Obligations.EveryCycleWritesPcOnce : Prop :=
  ∀ (s t : State) (rest : List HostEvent) (i : Instr), s.CycleNext rest → s.mode = .running → PcFetchable s.pc →
    decode s.fetchedWord = .ok i → step s = .next t → t.isFaulted = false →
    nextPc i s t.pc ∧ (∀ x, i = .ldVxK x → t.mode = .waitingForKey x) ∧ ((∀ x, i ≠ .ldVxK x) → t.mode = .running)

/-- Every instruction is executed in every state: exec always answers a next state, and so does step; the core never
stops itself, but enters mode Faulted (60_exceptions.md R304, R327). -/
def Obligations.EveryStepAnswersANextState : Prop :=
  (∀ (i : Instr) (s : State), ∃ t, exec i s = .next t) ∧ (∀ s : State, ∃ t, step s = .next t)

/-- A word put at the fetch point is the word the next step runs, from any state; every other byte of memory is as
before (20_memory.md R61, R74). `withFetchWord` stands for the model's load of a program (log entry 11). -/
def Obligations.PlacedWordIsRunNext : Prop :=
  ∀ (s : State) (w : Word) (i : Instr), decode w = .ok i →
    step (s.withFetchWord 16 w.toNat) = exec i (s.withFetchWord 16 w.toNat) ∧
    ∀ a : Nat, a ≠ (s.withFetchWord 16 w.toNat).pc.toNat → a ≠ (s.withFetchWord 16 w.toNat).pc.toNat + 1 →
      (s.withFetchWord 16 w.toNat).mem.read a = s.mem.read a

/-- Self-modifying code (20_memory.md R74): LD [I],V1 whose I is the address of the next instruction; the next cycle
executes the two bytes just stored. Both are steps with no event listed (log entry 1). -/
def Obligations.StoredInstructionIsExecutedNext : Prop :=
  ∀ (s : State) (i : Instr), s.inputs = [] → s.mode = .running → PcFetchable s.pc → s.pc.toNat ≤ 0xFFC →
    s.fetchedWord = 0xF155#16 → s.I = s.pc + 2 → decode (s.getV 0 ++ s.getV 1) = .ok i →
    ∃ t, step s = .next t ∧ t.pc = s.pc + 2 ∧ t.mem.read (s.pc.toNat + 2) = s.getV 0 ∧
      t.mem.read (s.pc.toNat + 3) = s.getV 1 ∧ step t = exec i t

/-! ## Control transfer -/

/-- RET (41_control.md R140). The opcode number is general knowledge (log entry 16), bits 11 to 4 are ignored by decision
D2, and the record's word is the one at pc (log entry 6). -/
def Obligations.RetPopsOrUnderflows : Prop :=
  (∀ h : Byte, decode ((0x0#4 ++ h) ++ 0xE#4) = .ok .ret) ∧
  (∀ s : State, s.sp.val = 0 →
    exec .ret s = .next (s.faultedWith .stackUnderflow (some s.fetchedWord) (.sp 0))) ∧
  (∀ (s : State) (j : Fin 16), s.sp.val = j.val + 1 →
    exec .ret s = .next { s with sp := j.castSucc, pc := s.stack[j.val] + 2 } ∧
    (s.stack[j.val].toNat ≤ 0xFFE → (s.stack[j.val] + 2).toNat ≤ 0x1000))

/-- JP addr (41_control.md R141): the jump, the loop on its own address, and the next fetch from a target that is odd,
below 0x200 (STRICT_PC, decision D9), or 0xFFF; each cycle here is the one of a step with no event listed (log entry 1).
The opcode number is general knowledge (log entry 16). -/
def Obligations.JumpSetsPc : Prop :=
  ∀ (nnn : Addr) (s : State),
    decode (0x1#4 ++ nnn) = .ok (.jp nnn) ∧
    exec (.jp nnn) s = .next { s with pc := BitVec.ofNat 16 nnn.toNat } ∧
    (s.inputs = [] → s.mode = .running → PcFetchable s.pc → s.pc.toNat = nnn.toNat →
      s.fetchedWord = 0x1#4 ++ nnn → step s = .next s) ∧
    (s.inputs = [] → s.mode = .running → (nnn.toNat % 2 = 1 ∨ nnn.toNat < 0x200) → nnn.toNat ≠ 0xFFF →
      step { s with pc := BitVec.ofNat 16 nnn.toNat } =
        .next ({ s with pc := BitVec.ofNat 16 nnn.toNat }.faultedWith .pcInvariantError none .none)) ∧
    (s.inputs = [] → s.mode = .running → nnn.toNat = 0xFFF →
      step { s with pc := BitVec.ofNat 16 nnn.toNat } =
        .next ({ s with pc := BitVec.ofNat 16 nnn.toNat }.faultedWith .addressRangeError none (.address 0x1000)))

/-- CALL addr (41_control.md R142): the CALL's own address is pushed; the seventeenth nested CALL faults and writes
nothing. The opcode number is general knowledge (log entry 16); the record's word is the one at pc (log entry 6). -/
def Obligations.CallPushesItsOwnAddress : Prop :=
  ∀ (nnn : Addr) (s : State),
    decode (0x2#4 ++ nnn) = .ok (.call nnn) ∧
    (s.sp.val = 16 →
      exec (.call nnn) s = .next (s.faultedWith .stackOverflow (some s.fetchedWord) (.sp 16))) ∧
    (∀ j : Fin 16, s.sp.val = j.val →
      exec (.call nnn) s =
        .next { s with stack := s.stack.set j.val s.pc, sp := j.succ, pc := BitVec.ofNat 16 nnn.toNat })

/-- A RET that meets the stack a CALL left resumes after the CALL: pc is the CALL's address plus 2, the stack pointer and
every entry below it are as before (41_control.md R140, R142; 95_test_vectors.md W3). -/
def Obligations.RetAfterCallResumesAfterTheCall : Prop :=
  ∀ (nnn : Addr) (s : State), s.sp.val < 16 →
    ∃ t u, exec (.call nnn) s = .next t ∧ exec .ret t = .next u ∧
      u = { s with stack := u.stack, pc := s.pc + 2 } ∧
      ∀ j : Fin 16, j.val ≠ s.sp.val → u.stack[j.val] = s.stack[j.val]

/-- The skips on registers (41_control.md R143, R144, R145, R146): 4 or 2 is added to pc and nothing else changes; the
low nibble of the register forms is ignored (decision D26). The opcode numbers are general knowledge (log entry 16). -/
def Obligations.SkipsOnRegisters : Prop :=
  ∀ (x y : Reg) (nn : Byte) (h : Nibble) (s : State),
    decode ((0x3#4 ++ regBits x) ++ nn) = .ok (.seByte x nn) ∧
    decode ((0x4#4 ++ regBits x) ++ nn) = .ok (.sneByte x nn) ∧
    decode ((0x5#4 ++ regBits x) ++ (regBits y ++ h)) = .ok (.seReg x y) ∧
    decode ((0x9#4 ++ regBits x) ++ (regBits y ++ h)) = .ok (.sneReg x y) ∧
    exec (.seByte x nn) s = .next { s with pc := s.pc + (if s.getV x = nn then 4 else 2) } ∧
    exec (.sneByte x nn) s = .next { s with pc := s.pc + (if s.getV x ≠ nn then 4 else 2) } ∧
    exec (.seReg x y) s = .next { s with pc := s.pc + (if s.getV x = s.getV y then 4 else 2) } ∧
    exec (.sneReg x y) s = .next { s with pc := s.pc + (if s.getV x ≠ s.getV y then 4 else 2) }

/-- JP V0, addr (41_control.md R147): the natural sum, not masked to 12 bits (decision D7); the offset register is V0
(decision D24). -/
def Obligations.JumpWithOffsetIsTheNaturalSum : Prop :=
  ∀ (nnn : Addr) (s : State), ∃ t, exec (.jpV0 nnn) s = .next t ∧ t = { s with pc := t.pc } ∧
    t.pc.toNat = nnn.toNat + (s.getV 0).toNat

/-! ## Register loads and the ALU -/

/-- LD Vx, byte and LD Vx, Vy (42_alu.md R160, R162). Their words: `EveryEncodingOfTheTablesDecodes`. -/
def Obligations.LoadsOfRegisters : Prop :=
  ∀ (x y : Reg) (nn : Byte) (s : State),
    (∃ t, exec (.ldByte x nn) s = .next t ∧ t = { s with V := t.V, pc := s.pc + 2 } ∧ t.getV x = nn ∧
      ∀ k, k ≠ x → t.getV k = s.getV k) ∧
    (∃ t, exec (.ldReg x y) s = .next t ∧ t = { s with V := t.V, pc := s.pc + 2 } ∧ t.getV x = s.getV y ∧
      ∀ k, k ≠ x → t.getV k = s.getV k)

/-- ADD Vx, byte (42_alu.md R161): modulo 256, no flag; VF changes only as the destination. Its words:
`EveryEncodingOfTheTablesDecodes`. -/
def Obligations.AddImmediateWrapsWithoutFlag : Prop :=
  ∀ (x : Reg) (nn : Byte) (s : State),
    ∃ t, exec (.addByte x nn) s = .next t ∧ t = { s with V := t.V, pc := s.pc + 2 } ∧
      (t.getV x).toNat = ((s.getV x).toNat + nn.toNat) % 256 ∧ ∀ k, k ≠ x → t.getV k = s.getV k

/-- OR, AND, XOR (42_alu.md R163, R164, R165), bit by bit; VF changes only as the destination (decision D6). -/
def Obligations.LogicalOperationsAreBitwise : Prop :=
  ∀ (x y : Reg) (s : State),
    (∃ t, exec (.orReg x y) s = .next t ∧ t = { s with V := t.V, pc := s.pc + 2 } ∧
      (∀ b, (t.getV x).getLsbD b = ((s.getV x).getLsbD b || (s.getV y).getLsbD b)) ∧
      ∀ k, k ≠ x → t.getV k = s.getV k) ∧
    (∃ t, exec (.andReg x y) s = .next t ∧ t = { s with V := t.V, pc := s.pc + 2 } ∧
      (∀ b, (t.getV x).getLsbD b = ((s.getV x).getLsbD b && (s.getV y).getLsbD b)) ∧
      ∀ k, k ≠ x → t.getV k = s.getV k) ∧
    (∃ t, exec (.xorReg x y) s = .next t ∧ t = { s with V := t.V, pc := s.pc + 2 } ∧
      (∀ b, (t.getV x).getLsbD b = ((s.getV x).getLsbD b ^^ (s.getV y).getLsbD b)) ∧
      ∀ k, k ≠ x → t.getV k = s.getV k)

/-- ADD Vx, Vy (42_alu.md R166): the sum modulo 256 and the carry in VF, both of the old operands; VF is written last, so
with X = F it holds the carry (decision D5). -/
def Obligations.AddSetsCarry : Prop :=
  ∀ (x y : Reg) (s : State), ∃ t, exec (.addReg x y) s = .next t ∧ t = { s with V := t.V, pc := s.pc + 2 } ∧
    (x ≠ VF → (t.getV x).toNat = ((s.getV x).toNat + (s.getV y).toNat) % 256) ∧
    (t.getV VF).toNat = (if (s.getV x).toNat + (s.getV y).toNat > 255 then 1 else 0) ∧
    ∀ k, k ≠ x → k ≠ VF → t.getV k = s.getV k

/-- SUB and SUBN (42_alu.md R167, R169): the difference modulo 256 and NOT borrow in VF, both of the old operands; VF is
written last, so with X = F it holds the flag (decision D5). -/
def Obligations.SubtractionsSetNotBorrow : Prop :=
  ∀ (x y : Reg) (s : State),
    (∃ t, exec (.subReg x y) s = .next t ∧ t = { s with V := t.V, pc := s.pc + 2 } ∧
      (x ≠ VF → (t.getV x).toNat = if (s.getV x).toNat < (s.getV y).toNat
        then (s.getV x).toNat + 256 - (s.getV y).toNat else (s.getV x).toNat - (s.getV y).toNat) ∧
      (t.getV VF).toNat = (if (s.getV x).toNat < (s.getV y).toNat then 0 else 1) ∧
      ∀ k, k ≠ x → k ≠ VF → t.getV k = s.getV k) ∧
    (∃ t, exec (.subn x y) s = .next t ∧ t = { s with V := t.V, pc := s.pc + 2 } ∧
      (x ≠ VF → (t.getV x).toNat = if (s.getV y).toNat < (s.getV x).toNat
        then (s.getV y).toNat + 256 - (s.getV x).toNat else (s.getV y).toNat - (s.getV x).toNat) ∧
      (t.getV VF).toNat = (if (s.getV y).toNat < (s.getV x).toNat then 0 else 1) ∧
      ∀ k, k ≠ x → k ≠ VF → t.getV k = s.getV k)

/-- SHR and SHL (42_alu.md R168, R170) with SHIFT_SRC = X (decision D3): V[X] is shifted, whatever Y is; VF is written
first, and the shift reads the register file again, so with X = F it shifts the flag (decision D4). -/
def Obligations.ShiftsWriteTheFlagFirst : Prop :=
  ∀ (x y : Reg) (s : State),
    (∃ t, exec (.shr x y) s = .next t ∧ t = { s with V := t.V, pc := s.pc + 2 } ∧
      (x ≠ VF → (t.getV x).toNat = (s.getV x).toNat / 2 ∧ (t.getV VF).toNat = (s.getV x).toNat % 2) ∧
      (x = VF → t.getV VF = 0) ∧ ∀ k, k ≠ x → k ≠ VF → t.getV k = s.getV k) ∧
    (∃ t, exec (.shl x y) s = .next t ∧ t = { s with V := t.V, pc := s.pc + 2 } ∧
      (x ≠ VF → (t.getV x).toNat = (s.getV x).toNat * 2 % 256 ∧ (t.getV VF).toNat = (s.getV x).toNat / 128) ∧
      (x = VF → (t.getV VF).toNat = (s.getV VF).toNat / 128 * 2) ∧ ∀ k, k ≠ x → k ≠ VF → t.getV k = s.getV k)

/-- RND Vx, byte (42_alu.md R171): the byte of the `Cycle(r)` event under way ANDed with NN; where the host's event is
not listed, some byte r, a free value (decision D27, log entry 2). -/
def Obligations.RandomByteIsMasked : Prop :=
  ∀ (x : Reg) (nn : Byte) (s : State),
    (∀ r, s.rand = some r → ∃ t, exec (.rnd x nn) s = .next t ∧ t = { s with V := t.V, pc := s.pc + 2 } ∧
      t.getV x = r &&& nn ∧ ∀ k, k ≠ x → t.getV k = s.getV k) ∧
    (s.rand = none → ∃ t, exec (.rnd x nn) s = .next t ∧
      t = { s with V := t.V, pc := s.pc + 2, draws := s.draws + 1 } ∧
      (∃ r, t.getV x = r &&& nn) ∧ ∀ k, k ≠ x → t.getV k = s.getV k)

/-! ## The index register and memory transfers -/

/-- LD I, addr (43_index_memory.md R190). Its words: `EveryEncodingOfTheTablesDecodes`. -/
def Obligations.LoadIndex : Prop :=
  ∀ (nnn : Addr) (s : State),
    exec (.ldI nnn) s = .next { s with I := BitVec.ofNat 16 nnn.toNat, pc := s.pc + 2 }

/-- ADD I, Vx (43_index_memory.md R191, R196): the exact sum, held up to 0xFFFF; above it AddressRangeError with the sum,
and nothing else changes (decisions D7, D33: no flag). The record's word is the one at pc (log entry 6). -/
def Obligations.AddToIndexIsExactOrFaults : Prop :=
  ∀ (x : Reg) (s : State),
    (s.I.toNat + (s.getV x).toNat ≤ 0xFFFF → ∃ t, exec (.addI x) s = .next t ∧
      t = { s with I := t.I, pc := s.pc + 2 } ∧ t.I.toNat = s.I.toNat + (s.getV x).toNat) ∧
    (0xFFFF < s.I.toNat + (s.getV x).toNat →
      exec (.addI x) s = .next (s.faultedWith .addressRangeError (some s.fetchedWord)
        (.address (s.I.toNat + (s.getV x).toNat))))

/-- LD F, Vx (43_index_memory.md R192): GLYPH_BASE (0, decision D14) + 5 * V[X], the value not masked to a
hexadecimal digit (decision D13). -/
def Obligations.GlyphAddressIsFiveTimesTheValue : Prop :=
  ∀ (x : Reg) (s : State), ∃ t, exec (.ldF x) s = .next t ∧ t = { s with I := t.I, pc := s.pc + 2 } ∧
    t.I.toNat = 5 * (s.getV x).toNat

/-- LD B, Vx (43_index_memory.md R193): where I + 2 is in range, the three decimal digits of V[X] at I, I + 1, I + 2,
every other byte as before, and I not changed. -/
def Obligations.DecimalDigitsStored : Prop :=
  ∀ (x : Reg) (s : State), s.I.toNat + 2 < 4096 →
    ∃ t, exec (.ldB x) s = .next t ∧ t = { s with mem := t.mem, pc := s.pc + 2 } ∧
      (t.mem.read s.I.toNat).toNat = (s.getV x).toNat / 100 ∧
      (t.mem.read (s.I.toNat + 1)).toNat = (s.getV x).toNat / 10 % 10 ∧
      (t.mem.read (s.I.toNat + 2)).toNat = (s.getV x).toNat % 10 ∧
      ∀ a : Nat, ¬ storesTo (.ldB x) s a → t.mem.read a = s.mem.read a

/-- LD [I], Vx (43_index_memory.md R194): V[0] to V[X] at I to I + X, every other byte as before, and I advanced by X + 1
(decision D15). -/
def Obligations.RegisterBlockStored : Prop :=
  ∀ (x : Reg) (s : State), s.I.toNat + x.val < 4096 →
    ∃ t, exec (.storeRegs x) s = .next t ∧ t = { s with mem := t.mem, I := t.I, pc := s.pc + 2 } ∧
      t.I.toNat = s.I.toNat + x.val + 1 ∧
      (∀ k : Reg, k ≤ x → t.mem.read (s.I.toNat + k.val) = s.getV k) ∧
      ∀ a : Nat, ¬ storesTo (.storeRegs x) s a → t.mem.read a = s.mem.read a

/-- LD Vx, [I] (43_index_memory.md R195): V[0] to V[X] are the bytes at I to I + X, the registers above X are as before,
I is advanced by X + 1 (decision D15), and memory is as before. -/
def Obligations.RegisterBlockLoaded : Prop :=
  ∀ (x : Reg) (s : State), s.I.toNat + x.val < 4096 →
    ∃ t, exec (.loadRegs x) s = .next t ∧ t = { s with V := t.V, I := t.I, pc := s.pc + 2 } ∧
      t.I.toNat = s.I.toNat + x.val + 1 ∧
      (∀ k : Reg, k ≤ x → t.getV k = s.mem.read (s.I.toNat + k.val)) ∧ ∀ k : Reg, x < k → t.getV k = s.getV k

/-- A block stored by LD [I],Vx and loaded by LD Vx,[I] from the same address, whatever the registers hold in between:
V[0] to V[X] are what they were at the store (43_index_memory.md R194, R195; 20_memory.md R70). -/
def Obligations.LoadAfterStoreRestoresRegisters : Prop :=
  ∀ (x : Reg) (s t : State) (W : Vector Byte 16), s.I.toNat + x.val < 4096 → exec (.storeRegs x) s = .next t →
    ∃ u, exec (.loadRegs x) { t with V := W, I := s.I } = .next u ∧ ∀ k : Reg, k ≤ x → u.getV k = s.getV k

/-- A block of bytes that leaves the 4096 bytes of memory: LD B, LD [I], LD Vx,[I] and DRW raise AddressRangeError with
the lowest address of the block that does not exist, before anything is written (20_memory.md R63, 43_index_memory.md
R193 to R195, 44_display.md R211; decisions D7, D8). The record's word is the one at pc (log entry 6). -/
def Obligations.BlocksOutOfRangeFaultBeforeAnyWrite : Prop :=
  ∀ (x y : Reg) (n : Nibble) (s : State),
    (4096 ≤ s.I.toNat + 2 → exec (.ldB x) s = .next (s.faultedWith .addressRangeError (some s.fetchedWord)
      (.address (max s.I.toNat 0x1000)))) ∧
    (4096 ≤ s.I.toNat + x.val → exec (.storeRegs x) s = .next (s.faultedWith .addressRangeError (some s.fetchedWord)
      (.address (max s.I.toNat 0x1000)))) ∧
    (4096 ≤ s.I.toNat + x.val → exec (.loadRegs x) s = .next (s.faultedWith .addressRangeError (some s.fetchedWord)
      (.address (max s.I.toNat 0x1000)))) ∧
    (0 < n.toNat → 4096 ≤ s.I.toNat + n.toNat - 1 → exec (.drw x y n) s = .next (s.faultedWith .addressRangeError
      (some s.fetchedWord) (.address (max s.I.toNat 0x1000))))

/-! ## The display -/

/-- CLS (44_display.md R210): all 2048 pixels 0, redraw set, pc + 2, nothing else. -/
def Obligations.ClsClearsEveryPixel : Prop :=
  ∀ s : State, ∃ t, exec .cls s = .next t ∧ t = { s with disp := t.disp, redraw := true, pc := s.pc + 2 } ∧
    ∀ c r, t.disp.get c r = false

/-- DRW Vx, Vy, nibble (44_display.md R211 to R213; decisions D10, D11, D12, D38), pixel by pixel and not by its loop: a
pixel flips exactly when a 1 bit of the sprite lands on it; VF is 1 exactly when such a pixel was 1, else 0; redraw is
set; no other register, and no byte of memory, changes. -/
def Obligations.DrwXorsTheSprite : Prop :=
  ∀ (x y : Reg) (n : Nibble) (s : State), (n.toNat = 0 ∨ s.I.toNat + n.toNat - 1 < 4096) →
    ∃ t, exec (.drw x y n) s = .next t ∧ t = { s with V := t.V, disp := t.disp, redraw := true, pc := s.pc + 2 } ∧
      (∀ c r, (spriteCovers s x y n.toNat c r → t.disp.get c r = !s.disp.get c r) ∧
        (¬ spriteCovers s x y n.toNat c r → t.disp.get c r = s.disp.get c r)) ∧
      ((∃ c r, spriteCovers s x y n.toNat c r ∧ s.disp.get c r = true) → t.getV VF = 1) ∧
      ((¬ ∃ c r, spriteCovers s x y n.toNat c r ∧ s.disp.get c r = true) → t.getV VF = 0) ∧
      ∀ k, k ≠ VF → t.getV k = s.getV k

/-- Drawing the same sprite twice at the same position restores every pixel; from a clear display the second draw sets VF
when the sprite has a 1 bit (44_display.md R211, 95_test_vectors.md W7). X and Y are not F, since the first draw writes
VF and so would move the second. -/
def Obligations.DrawingTwiceRestoresTheDisplay : Prop :=
  ∀ (x y : Reg) (n : Nibble) (s : State), x ≠ VF → y ≠ VF → (n.toNat = 0 ∨ s.I.toNat + n.toNat - 1 < 4096) →
    ∃ t u, exec (.drw x y n) s = .next t ∧ exec (.drw x y n) t = .next u ∧
      (∀ c r, u.disp.get c r = s.disp.get c r) ∧
      ((∀ c r, s.disp.get c r = false) → (∃ c r, spriteCovers s x y n.toNat c r) → u.getV VF = 1)

/-- A sprite that lies wholly on the screen is drawn alike under both values of EDGE_MODE (44_display.md R212,
95_test_vectors.md P3). -/
def Obligations.EdgeModesAgreeOnScreen : Prop :=
  ∀ (px py : Nat) (bs : List Byte) (cv : Canvas), px + 8 ≤ 64 → py + bs.length ≤ 32 →
    drawSprite .clip px py bs cv = drawSprite .wrap px py bs cv

/-! ## Timers, keys, the wait -/

/-- LD Vx,DT, LD DT,Vx and LD ST,Vx (45_timers_input.md R232, R234, R235): copies; a non-zero ST makes sound active at
once, and with V[X] = 1 the next Tick emits the cue (decision D19). The opcode numbers are general knowledge (log entry 16). -/
def Obligations.TimerTransfers : Prop :=
  ∀ (x : Reg) (s : State),
    decode ((0xF#4 ++ regBits x) ++ 0x07#8) = .ok (.ldVxDT x) ∧
    decode ((0xF#4 ++ regBits x) ++ 0x15#8) = .ok (.ldDTVx x) ∧
    decode ((0xF#4 ++ regBits x) ++ 0x18#8) = .ok (.ldSTVx x) ∧
    (∃ t, exec (.ldVxDT x) s = .next t ∧ t = { s with V := t.V, pc := s.pc + 2 } ∧ t.getV x = s.DT ∧
      ∀ k, k ≠ x → t.getV k = s.getV k) ∧
    exec (.ldDTVx x) s = .next { s with DT := s.getV x, pc := s.pc + 2 } ∧
    (∃ t, exec (.ldSTVx x) s = .next t ∧ t = { s with ST := s.getV x, pc := s.pc + 2 } ∧
      (t.soundActive = true ↔ s.getV x ≠ 0) ∧ (s.mode = .running → s.getV x = 1 → t.cue .tick = true))

/-- SKP and SKNP (45_timers_input.md R230, R231): a skip on `keys[V[X]]`; KeyRangeError with the value when it is above
15 (decision D16). The record's word is the one at pc (log entry 6). -/
def Obligations.SkipsOnKeys : Prop :=
  ∀ (x : Reg) (s : State),
    (∀ k : Key, (s.getV x).toNat = k.val →
      exec (.skp x) s = .next { s with pc := s.pc + (if s.keys.getLsbD k.val = true then 4 else 2) } ∧
      exec (.sknp x) s = .next { s with pc := s.pc + (if s.keys.getLsbD k.val = false then 4 else 2) }) ∧
    (15 < (s.getV x).toNat →
      exec (.skp x) s = .next (s.faultedWith .keyRangeError (some s.fetchedWord) (.key (s.getV x).toNat)) ∧
      exec (.sknp x) s = .next (s.faultedWith .keyRangeError (some s.fetchedWord) (.key (s.getV x).toNat)))

/-- LD Vx, K (45_timers_input.md R233): the core waits, and pc stays at the instruction. -/
def Obligations.WaitForKeyIsEntered : Prop :=
  ∀ (x : Reg) (s : State), exec (.ldVxK x) s = .next { s with mode := .waitingForKey x }

/-- A Cycle in a wait changes no state, and its r is discarded (40_execution_cycle.md R125, decision D34); so does a step
with no event listed, which is a Cycle (log entry 1). The wait ends only through a Keys event. -/
def Obligations.CycleWhileWaitingChangesNothing : Prop :=
  ∀ (x : Reg) (s : State), s.mode = .waitingForKey x →
    (∀ r, s.deliver (.cycle r) = .next s) ∧ (s.inputs = [] → step s = .next s) ∧
    (∀ (e : HostEvent) (t : State), s.deliver e = .next t → t.mode ≠ s.mode → ∃ v, e = .keys v)

/-- The Keys event (60_exceptions.md R323, 45_timers_input.md R236; decisions D17, D31): in mode Running it replaces the
key vector and nothing else; in a wait it does so too, and when some key went from released to pressed, V[x] holds one
such key (which one is a free value, WAIT_PICK, log entry 3), pc is 2 further, and the core runs. -/
def Obligations.KeysEventCompletesAWait : Prop :=
  ∀ (s : State) (v : KeyVec) (rest : List HostEvent), s.inputs = .keys v :: rest →
    (s.mode = .running → step s = .next { s with inputs := rest, keys := v }) ∧
    (∀ x, s.mode = .waitingForKey x →
      ((∀ k : Key, ¬ (s.keys.getLsbD k.val = false ∧ v.getLsbD k.val = true)) →
        step s = .next { s with inputs := rest, keys := v }) ∧
      ((∃ k : Key, s.keys.getLsbD k.val = false ∧ v.getLsbD k.val = true) →
        ∃ (k : Key) (t : State), s.keys.getLsbD k.val = false ∧ v.getLsbD k.val = true ∧ step s = .next t ∧
          t = { s with inputs := rest, keys := v, V := t.V, pc := s.pc + 2, mode := .running, draws := t.draws } ∧
          (t.getV x).toNat = k.val ∧ ∀ j, j ≠ x → t.getV j = s.getV j))

/-- The Tick event (60_exceptions.md R310): in every mode but Faulted, each timer is one less, floor at 0, and nothing
else changes. -/
def Obligations.TickDecrementsBothTimers : Prop :=
  ∀ (s : State) (rest : List HostEvent), s.inputs = .tick :: rest → s.isFaulted = false →
    ∃ t, step s = .next t ∧ t = { s with inputs := rest, DT := t.DT, ST := t.ST } ∧
      t.DT.toNat = s.DT.toNat - 1 ∧ t.ST.toNat = s.ST.toNat - 1

/-- "The output sound_active is 1 exactly when ST ≠ 0" (60_exceptions.md R311). -/
def Obligations.SoundIsActiveExactlyWhenTimerIsNonzero : Prop :=
  ∀ s : State, (s.outputs.soundActive = true ↔ s.ST.toNat ≠ 0)

/-- The cue (60_exceptions.md R312; decision D19): emitted by a Tick that takes ST from 1 to 0, in any mode but Faulted,
and by no other event. -/
def Obligations.CueMarksTheTickFromOneToZero : Prop :=
  ∀ (s : State) (e : HostEvent), s.cue e = true ↔
    e = .tick ∧ s.isFaulted = false ∧ s.ST.toNat = 1 ∧ ∃ t, s.deliver .tick = .next t ∧ t.ST.toNat = 0

/-- ClearRedraw writes `redraw <- 0` in every mode, and nothing else (60_exceptions.md R324; decisions D20, D37). -/
def Obligations.ClearRedrawInEveryMode : Prop :=
  ∀ (s : State) (rest : List HostEvent), s.inputs = .clearRedraw :: rest →
    step s = .next { s with inputs := rest, redraw := false }

/-! ## Errors -/

/-- Errors are precise (60_exceptions.md R304, R305; decisions D8, D23): an instruction that raises has changed nothing
but the mode, and the record holds its pc and the word fetched there (log entry 6). -/
def Obligations.ErrorsArePrecise : Prop :=
  ∀ (i : Instr) (s t : State) (rec : FaultRecord), s.mode = .running → exec i s = .next t →
    t.mode = .faulted rec →
    t = { s with mode := .faulted rec } ∧ rec.pc = s.pc ∧ rec.word = some s.fetchedWord

/-- Faulted is final (40_execution_cycle.md R126, 60_exceptions.md R306; decisions D23, D37): no event changes anything
but ClearRedraw the redraw flag, delivered alone or by a step from the host's list, and none emits a cue. -/
def Obligations.FaultedIsFinal : Prop :=
  ∀ (s : State) (rec : FaultRecord), s.mode = .faulted rec →
    (∀ r, s.deliver (.cycle r) = .next s) ∧ s.deliver .tick = .next s ∧ (∀ v, s.deliver (.keys v) = .next s) ∧
    s.deliver .clearRedraw = .next { s with redraw := false } ∧ (s.inputs = [] → step s = .next s) ∧
    (∀ e, s.cue e = false) ∧ (∀ t, step s = .next t → t.mode = .faulted rec) ∧
    (∀ (e : HostEvent) (rest : List HostEvent), s.inputs = e :: rest →
      step s = .next { s with inputs := rest, redraw := if e = .clearRedraw then false else s.redraw })

/-- A run that has faulted has ended in error, whatever events the host still lists: however many more steps it takes, the
last state is Faulted with the same record, and so not safe (60_exceptions.md R306, R328; decision D23). -/
def Obligations.AFaultedRunStaysFaulted : Prop :=
  ∀ (n : Nat) (s : State) (rec : FaultRecord), s.mode = .faulted rec →
    ∃ t : State, Host.Core.run Sys2Proof.core n s = .next t ∧ t.mode = .faulted rec ∧ ¬ t.Safe

/-! ## Whole-machine rules -/

/-- THE INVARIANT IS KEPT by every step, whatever the host's event: canonical memory, pc at most 0x10FE (10_state.md
R23), stack entries in use fetchable (R37), a wait at its instruction, a fault record sound and at pc (60_exceptions.md
R300, R305). -/
def Obligations.EveryStepKeepsTheInvariant : Prop :=
  ∀ s t : State, s.Inv → step s = .next t → t.Inv

/-- The invariant holds after reset. -/
def Obligations.ResetMeetsTheInvariant : Prop := State.reset.Inv

/-- Only LD B and LD [I] write memory, and only the bytes from I that 20_memory.md R65 gives them
(R60): every other byte reads as before, whatever the instruction. -/
def Obligations.OnlyStoresWriteMemory : Prop :=
  ∀ (i : Instr) (s t : State) (a : Nat), exec i s = .next t → ¬ storesTo i s a → t.mem.read a = s.mem.read a

/-- The register frame of every instruction: a register changes only as its destination, as VF where VF is its flag, or
in the block of LD Vx,[I] (10_state.md R21; decisions D6, D33). -/
def Obligations.OnlyDestinationsAndFlagsChange : Prop :=
  ∀ (i : Instr) (s t : State) (k : Reg), exec i s = .next t → ¬ writesReg i k → t.getV k = s.getV k

/-- The display is mutated only by CLS and DRW, and no instruction clears redraw (10_state.md R31, R32); the keys, the
host's events and its byte are written by no instruction (R33). -/
def Obligations.OnlyClsAndDrwChangeTheDisplay : Prop :=
  ∀ (i : Instr) (s t : State), exec i s = .next t →
    (i ≠ .cls → (∀ x y n, i ≠ .drw x y n) → t.disp = s.disp ∧ t.redraw = s.redraw) ∧
    (s.redraw = true → t.redraw = true) ∧ t.keys = s.keys ∧ t.inputs = s.inputs ∧ t.rand = s.rand

/-- Who writes the rest: stack entries only CALL, and only the entry at sp; sp only CALL and RET (10_state.md R27, R28);
DT only LD DT,Vx and ST only LD ST,Vx (40_execution_cycle.md R128); I only the five instructions of 10_state.md R26; the
count of free values only RND. -/
def Obligations.WritersOfStackTimersAndIndex : Prop :=
  ∀ (i : Instr) (s t : State), exec i s = .next t →
    ((∀ a, i ≠ .call a) → t.stack = s.stack) ∧
    (∀ j : Fin 16, j.val ≠ s.sp.val → t.stack[j.val] = s.stack[j.val]) ∧
    ((∀ a, i ≠ .call a) → i ≠ .ret → t.sp = s.sp) ∧
    ((∀ x, i ≠ .ldDTVx x) → t.DT = s.DT) ∧ ((∀ x, i ≠ .ldSTVx x) → t.ST = s.ST) ∧
    ((∀ a, i ≠ .ldI a) → (∀ x, i ≠ .addI x) → (∀ x, i ≠ .ldF x) → (∀ x, i ≠ .storeRegs x) →
      (∀ x, i ≠ .loadRegs x) → t.I = s.I) ∧
    ((∀ x nn, i ≠ .rnd x nn) → t.draws = s.draws)

/-- What an instruction can learn: the random byte is read only by RND (60_exceptions.md R321, decision D27), the keys
only by SKP and SKNP (10_state.md R33), ST by no instruction (R30), stack entries at sp and above by none (R27). Two
states that differ only there give results that differ only there. -/
def Obligations.UnreadStateDoesNotInfluence : Prop :=
  ∀ (i : Instr) (s : State),
    (∀ r, (∀ x nn, i ≠ .rnd x nn) → exec i { s with rand := r } = mapNext (fun t => { t with rand := r }) (exec i s)) ∧
    (∀ v, (∀ x, i ≠ .skp x) → (∀ x, i ≠ .sknp x) →
      exec i { s with keys := v } = mapNext (fun t => { t with keys := v }) (exec i s)) ∧
    (∀ b, (∀ x, i ≠ .ldSTVx x) → exec i { s with ST := b } = mapNext (fun t => { t with ST := b }) (exec i s)) ∧
    (∀ (j : Fin 16) (a : Word), s.sp.val ≤ j.val → (∀ n, i ≠ .call n) →
      exec i { s with stack := s.stack.set j.val a } =
        mapNext (fun t => { t with stack := t.stack.set j.val a }) (exec i s))

/-- Two memories in canonical form that read alike at every address are the same data. -/
def Obligations.CanonicalMemoriesThatReadAlikeAreEqual : Prop :=
  ∀ m m' : Memory, m.wf → m'.wf → (∀ a : Nat, m.read a = m'.read a) → m = m'

/-! ## Reset and construction -/

/-- The state after reset (10_state.md R38, 20_memory.md R66, R67, 70_reset_and_hazards.md R343). The glyph bytes are
general knowledge by the spec's own words (93 G3, log entry 4), and the zeros are its decision D21 (log entry 9). -/
def Obligations.ResetState : Prop :=
  State.reset.pc = 0x200 ∧ State.reset.mode = .running ∧ State.reset.sp = 0 ∧ State.reset.I = 0 ∧
  State.reset.DT = 0 ∧ State.reset.ST = 0 ∧ State.reset.redraw = false ∧ State.reset.keys = 0 ∧
  (∀ k : Reg, State.reset.getV k = 0) ∧ (∀ j : Fin 16, State.reset.stack[j.val] = 0) ∧
  (∀ c r, State.reset.disp.get c r = false) ∧
  State.reset.mem.readList 0 40 =
    [0xF0, 0x90, 0x90, 0x90, 0xF0, 0x20, 0x60, 0x20, 0x20, 0x70, 0xF0, 0x10, 0xF0, 0x80, 0xF0, 0xF0, 0x10, 0xF0, 0x10,
     0xF0, 0x90, 0x90, 0xF0, 0x10, 0x10, 0xF0, 0x80, 0xF0, 0x10, 0xF0, 0xF0, 0x80, 0xF0, 0x90, 0xF0, 0xF0, 0x10, 0x20,
     0x40, 0x40] ∧
  State.reset.mem.readList 40 40 =
    [0xF0, 0x90, 0xF0, 0x90, 0xF0, 0xF0, 0x90, 0xF0, 0x10, 0xF0, 0xF0, 0x90, 0xF0, 0x90, 0x90, 0xE0, 0x90, 0xE0, 0x90,
     0xE0, 0xF0, 0x80, 0x80, 0x80, 0xF0, 0xE0, 0x90, 0x90, 0x90, 0xE0, 0xF0, 0x80, 0xF0, 0x80, 0xF0, 0xF0, 0x80, 0xF0,
     0x80, 0x80] ∧
  (∀ a : Nat, 80 ≤ a → State.reset.mem.read a = 0)

/-- Construction (70_reset_and_hazards.md R341, R342; decision D28): an image of at most 3584 bytes stands at 0x200
verbatim, every other byte and all other state are those of reset, and the invariant holds; a longer image is a
LoadError, and no machine exists. -/
def Obligations.ConstructionLoadsTheImage : Prop :=
  ∀ img : List Byte,
    (img.length ≤ 3584 → ∃ t, construct img = .next t ∧ t = { State.reset with mem := t.mem } ∧ t.Inv ∧
      (∀ (k : Nat) (h : k < img.length), t.mem.read (0x200 + k) = img[k]) ∧
      (∀ a : Nat, a < 0x200 ∨ 0x200 + img.length ≤ a → t.mem.read a = State.reset.mem.read a)) ∧
    (3584 < img.length → construct img = .fault (.loadError img.length))
end

