-- ==== Sys2Proof/Laws/Encoding.lean ====
section
/-! SUPPORT. Fields of encoded words, and the bytes of a word: what the proofs about decoding cite. -/

namespace Sys2Proof

/-! ## The bits of an encoded word -/

theorem getLsbD_encNNN (c : Nibble) (nnn : Addr) (i : Nat) :
    (encNNN c nnn).getLsbD i = if i < 12 then nnn.getLsbD i else c.getLsbD (i - 12) :=
  BitVec.getLsbD_append

theorem getLsbD_encXNN (c : Nibble) (x : Reg) (nn : Byte) (i : Nat) :
    (encXNN c x nn).getLsbD i =
      if i < 8 then nn.getLsbD i else if i - 8 < 4 then (regBits x).getLsbD (i - 8) else c.getLsbD (i - 8 - 4) := by
  refine (BitVec.getLsbD_append (x := c ++ regBits x)).trans ?_
  rw [BitVec.getLsbD_append]

theorem getLsbD_encXYN (c : Nibble) (x y : Reg) (n : Nibble) (i : Nat) :
    (encXYN c x y n).getLsbD i =
      if i < 4 then n.getLsbD i else if i < 8 then (regBits y).getLsbD (i - 4)
      else if i - 8 < 4 then (regBits x).getLsbD (i - 8) else c.getLsbD (i - 8 - 4) := by
  refine (BitVec.getLsbD_append (x := c ++ regBits x)).trans ?_
  rw [BitVec.getLsbD_append, BitVec.getLsbD_append]
  by_cases h : i < 4
  · simp [h, show i < 8 by omega]
  · by_cases h8 : i < 8 <;> simp [h, h8]

/-! ## The fields of an encoded word -/

theorem extract_encNNN_c (c : Nibble) (nnn : Addr) : (encNNN c nnn).extractLsb' 12 4 = c := by
  ext i hi
  simp [BitVec.getElem_extractLsb', getLsbD_encNNN, BitVec.getLsbD_eq_getElem hi]

theorem extract_encNNN_nnn (c : Nibble) (nnn : Addr) : (encNNN c nnn).extractLsb' 0 12 = nnn := by
  ext i hi
  simp [BitVec.getElem_extractLsb', getLsbD_encNNN, hi]

theorem extract_encXNN_c (c : Nibble) (x : Reg) (nn : Byte) : (encXNN c x nn).extractLsb' 12 4 = c := by
  ext i hi
  simp [BitVec.getElem_extractLsb', getLsbD_encXNN, show ¬ 12 + i < 8 by omega, show ¬ 12 + i - 8 < 4 by omega,
    show 12 + i - 8 - 4 = i by omega, BitVec.getLsbD_eq_getElem hi]

theorem extract_encXNN_x (c : Nibble) (x : Reg) (nn : Byte) : (encXNN c x nn).extractLsb' 8 4 = regBits x := by
  ext i hi
  simp [BitVec.getElem_extractLsb', getLsbD_encXNN, hi]

theorem extract_encXNN_nn (c : Nibble) (x : Reg) (nn : Byte) : (encXNN c x nn).extractLsb' 0 8 = nn := by
  ext i hi
  simp [BitVec.getElem_extractLsb', getLsbD_encXNN, hi]

theorem extract_encXYN_c (c : Nibble) (x y : Reg) (n : Nibble) : (encXYN c x y n).extractLsb' 12 4 = c := by
  ext i hi
  simp [BitVec.getElem_extractLsb', getLsbD_encXYN, show ¬ 12 + i < 4 by omega, show ¬ 12 + i < 8 by omega,
    show ¬ 12 + i - 8 < 4 by omega, show 12 + i - 8 - 4 = i by omega, BitVec.getLsbD_eq_getElem hi]

theorem extract_encXYN_x (c : Nibble) (x y : Reg) (n : Nibble) : (encXYN c x y n).extractLsb' 8 4 = regBits x := by
  ext i hi
  simp [BitVec.getElem_extractLsb', getLsbD_encXYN, show ¬ 8 + i < 4 by omega, hi]

theorem extract_encXYN_y (c : Nibble) (x y : Reg) (n : Nibble) : (encXYN c x y n).extractLsb' 4 4 = regBits y := by
  ext i hi
  simp [BitVec.getElem_extractLsb', getLsbD_encXYN, show 4 + i < 8 by omega, BitVec.getLsbD_eq_getElem hi]

theorem extract_encXYN_n (c : Nibble) (x y : Reg) (n : Nibble) : (encXYN c x y n).extractLsb' 0 4 = n := by
  ext i hi
  simp [BitVec.getElem_extractLsb', getLsbD_encXYN, hi]

@[simp] theorem toFin_regBits (x : Reg) : (regBits x).toFin = x := rfl

@[simp] theorem fields_encNNN_c (c : Nibble) (nnn : Addr) : (fields (encNNN c nnn)).c = c := extract_encNNN_c c nnn
@[simp] theorem fields_encNNN_nnn (c : Nibble) (nnn : Addr) : (fields (encNNN c nnn)).nnn = nnn :=
  extract_encNNN_nnn c nnn

@[simp] theorem fields_encXNN_c (c : Nibble) (x : Reg) (nn : Byte) : (fields (encXNN c x nn)).c = c :=
  extract_encXNN_c c x nn
@[simp] theorem fields_encXNN_x (c : Nibble) (x : Reg) (nn : Byte) : (fields (encXNN c x nn)).x = x := by
  simp [fields, extract_encXNN_x]
@[simp] theorem fields_encXNN_nn (c : Nibble) (x : Reg) (nn : Byte) : (fields (encXNN c x nn)).nn = nn :=
  extract_encXNN_nn c x nn

@[simp] theorem fields_encXYN_c (c : Nibble) (x y : Reg) (n : Nibble) : (fields (encXYN c x y n)).c = c :=
  extract_encXYN_c c x y n
@[simp] theorem fields_encXYN_x (c : Nibble) (x y : Reg) (n : Nibble) : (fields (encXYN c x y n)).x = x := by
  simp [fields, extract_encXYN_x]
@[simp] theorem fields_encXYN_y (c : Nibble) (x y : Reg) (n : Nibble) : (fields (encXYN c x y n)).y = y := by
  simp [fields, extract_encXYN_y]
@[simp] theorem fields_encXYN_n (c : Nibble) (x y : Reg) (n : Nibble) : (fields (encXYN c x y n)).n = n :=
  extract_encXYN_n c x y n

/-! ## The bytes of a word -/

/-- The two bytes of a word make the word again. -/
@[simp] theorem wordOfBytes_hiByte_loByte (w : Word) : wordOfBytes (hiByte w) (loByte w) = w := by
  refine BitVec.eq_of_getLsbD_eq fun i hi => ?_
  refine (BitVec.getLsbD_append (x := hiByte w)).trans ?_
  by_cases h : i < 8
  · simp [h, loByte]
  · simp [h, hiByte, show i - 8 < 8 by omega, show 8 + (i - 8) = i by omega]

/-- The word of two bytes is `hi * 256 + lo` (20_memory.md R61). -/
theorem wordOfBytes_eq (hi lo : Byte) : wordOfBytes hi lo = BitVec.ofNat 16 (hi.toNat * 256 + lo.toNat) := by
  refine BitVec.eq_of_toNat_eq ?_
  have h : (wordOfBytes hi lo).toNat = hi.toNat <<< 8 ||| lo.toNat := BitVec.toNat_append hi lo
  rw [h, ← Nat.shiftLeft_add_eq_or_of_lt lo.isLt, Nat.shiftLeft_eq, BitVec.toNat_ofNat, Nat.mod_eq_of_lt]
  have := hi.isLt
  have := lo.isLt
  omega

/-! ## Legal words (30_encoding.md R100) -/

/-- The fields R100's list is about, read off the word's number. -/
theorem toNat_div_class (w : Word) : w.toNat / 0x1000 = (fields w).c.toNat := by
  simp only [fields, BitVec.extractLsb'_toNat, Nat.shiftRight_eq_div_pow]
  have := w.isLt
  omega

theorem toNat_mod_nn (w : Word) : w.toNat % 0x100 = (fields w).nn.toNat := by
  simp [fields, BitVec.extractLsb'_toNat]

theorem toNat_mod_n (w : Word) : w.toNat % 0x10 = (fields w).n.toNat := by
  simp [fields, BitVec.extractLsb'_toNat]

theorem wordLegal_eq (w : Word) : wordLegal w =
    if (fields w).c.toNat == 0x0 then class0Legal (fields w).n.toNat
    else if (fields w).c.toNat == 0x8 then class8Legal (fields w).n.toNat
    else if (fields w).c.toNat == 0xE then classELegal (fields w).nn.toNat
    else if (fields w).c.toNat == 0xF then classFLegal (fields w).nn.toNat
    else true := by
  simp only [wordLegal, toNat_div_class, toNat_mod_nn, toNat_mod_n]

end Sys2Proof
end

