-- ==== Sys2Proof/Laws/Memory.lean ====
section
/-! SUPPORT. The laws of memory: reading after a write, and that every operation keeps the canonical form. -/

namespace Sys2Proof.Machine.Memory

theorem read_insertCell (m : Memory) (a : Nat) (v : Byte) (h : ∀ p ∈ m, p.1 ≠ a) (b : Nat) :
    (m.insertCell a v).read b = if b = a then v else m.read b := by
  induction m with
  | nil => simp [insertCell, read, eq_comm]
  | cons p m ih =>
    have hp := h p (by simp)
    have ih := ih fun q hq => h q (by simp [hq])
    simp only [insertCell]
    by_cases hb : b = a
    · subst hb
      split <;> simp [read, ih, hp]
    · split <;> simp [read, ih, hb, Ne.symm hb]

theorem erase_cons (p : Host.Cell) (m : Memory) (a : Nat) :
    erase (p :: m) a = if p.1 = a then erase m a else p :: erase m a := by
  by_cases h : p.1 = a <;> simp [erase, h]

theorem read_erase (m : Memory) (a b : Nat) : (m.erase a).read b = if b = a then resetByte a else m.read b := by
  induction m with
  | nil => simp [erase, read]; intro h; rw [h]
  | cons p m ih =>
    rw [erase_cons]
    by_cases hp : p.1 = a
    · rw [if_pos hp, ih]
      by_cases hb : b = a
      · simp [hb]
      · simp [read, hb, hp, Ne.symm hb]
    · rw [if_neg hp]
      by_cases hb : b = a
      · subst hb; simp [read, ih, hp]
      · simp [read, ih, hb]

theorem mem_erase_ne (m : Memory) (a : Nat) : ∀ p ∈ m.erase a, p.1 ≠ a := by
  simp [erase]

/-- Reading after a write: the byte written at its address, the old byte everywhere else. -/
theorem read_write (m : Memory) (a b : Nat) (v : Byte) :
    (m.write a v).read b = if b = a then v else m.read b := by
  unfold write
  split
  · rename_i h; rw [read_erase, h]
  · rw [read_insertCell _ _ _ (mem_erase_ne m a), read_erase]; split <;> simp_all

@[simp] theorem read_write_self (m : Memory) (a : Nat) (v : Byte) : (m.write a v).read a = v := by
  simp [read_write]

@[simp] theorem read_write_of_ne (m : Memory) {a b : Nat} (v : Byte) (h : b ≠ a) :
    (m.write a v).read b = m.read b := by
  simp [read_write, h]

/-- Reading after a block write: byte k of the block at address a + k, the old byte outside the block. -/
theorem read_writeList (bs : List Byte) (m : Memory) (a b : Nat) :
    (m.writeList a bs).read b = if a ≤ b then (bs[b - a]?).getD (m.read b) else m.read b := by
  induction bs generalizing m a with
  | nil => simp [writeList]
  | cons v bs ih =>
    rw [writeList, ih]
    by_cases h1 : b = a
    · subst h1; simp
    · by_cases h2 : a ≤ b
      · have h3 : a + 1 ≤ b := by omega
        obtain ⟨k, rfl⟩ : ∃ k, b = a + 1 + k := ⟨b - (a + 1), by omega⟩
        rw [if_pos h3, if_pos h2, show a + 1 + k - (a + 1) = k by omega, show a + 1 + k - a = k + 1 by omega,
          List.getElem?_cons_succ, read_write_of_ne _ _ h1]
      · simp [h2, show ¬ a + 1 ≤ b by omega, h1]

@[simp] theorem length_readList (m : Memory) (a n : Nat) : (m.readList a n).length = n := by
  induction n generalizing a with
  | zero => rfl
  | succ n ih => simp [readList, ih]

theorem getElem_readList (m : Memory) (a n k : Nat) (h : k < (m.readList a n).length) :
    (m.readList a n)[k] = m.read (a + k) := by
  induction n generalizing a k with
  | zero => simp at h
  | succ n ih =>
    cases k with
    | zero => simp [readList]
    | succ k => simp only [readList, List.getElem_cons_succ, ih, show a + 1 + k = a + (k + 1) by omega]

/-! ## The canonical form -/

theorem wf_nil : Memory.wf [] := by decide

theorem wf_erase {m : Memory} (a : Nat) (h : m.wf) : (m.erase a).wf :=
  ⟨h.1.filter _, fun p hp => h.2 p (List.mem_filter.1 hp).1⟩

theorem mem_insertCell {m : Memory} {a : Nat} {v : Byte} {p : Host.Cell} (h : p ∈ m.insertCell a v) :
    p = (a, v) ∨ p ∈ m := by
  induction m with
  | nil => simpa [insertCell] using h
  | cons q m ih =>
    simp only [insertCell] at h
    split at h
    · simpa using h
    · rcases List.mem_cons.1 h with h | h
      · simp [h]
      · rcases ih h with h | h <;> simp [h]

theorem wf_insertCell {m : Memory} {a : Nat} {v : Byte} (h : m.wf) (hm : ∀ p ∈ m, p.1 ≠ a) (ha : a < 4096)
    (hv : v ≠ resetByte a) : (m.insertCell a v).wf := by
  refine ⟨?_, fun p hp => ?_⟩
  · have h1 := h.1
    clear h
    induction m with
    | nil => simp [insertCell]
    | cons q m ih =>
      have hq := hm q (by simp)
      rw [List.pairwise_cons] at h1
      simp only [insertCell]
      split
      · rename_i hlt
        refine List.pairwise_cons.2 ⟨fun p hp => ?_, List.pairwise_cons.2 h1⟩
        rcases List.mem_cons.1 hp with rfl | hp
        · exact hlt
        · exact Nat.lt_trans hlt (h1.1 p hp)
      · refine List.pairwise_cons.2 ⟨fun p hp => ?_, ih (fun p hp => hm p (by simp [hp])) h1.2⟩
        rcases mem_insertCell hp with rfl | hp
        · simp only; omega
        · exact h1.1 p hp
  · rcases mem_insertCell hp with rfl | hp
    · exact ⟨ha, hv⟩
    · exact h.2 p hp

/-- A write inside the address space keeps the canonical form. -/
theorem wf_write {m : Memory} (a : Nat) (v : Byte) (h : m.wf) (ha : a < 4096) : (m.write a v).wf := by
  unfold write
  split
  · exact wf_erase a h
  · rename_i hv; exact wf_insertCell (wf_erase a h) (mem_erase_ne m a) ha hv

/-- A block write inside the address space keeps the canonical form. -/
theorem wf_writeList {m : Memory} (a : Nat) (bs : List Byte) (h : m.wf) (ha : a + bs.length ≤ 4096) :
    (m.writeList a bs).wf := by
  induction bs generalizing m a with
  | nil => exact h
  | cons b bs ih =>
    simp only [List.length_cons] at ha
    exact ih (a + 1) (wf_write a b h (by omega)) (by omega)

/-- In canonical form no cell stands for an address outside the address space, so such an address reads as unlisted. -/
theorem read_of_le {m : Memory} (h : m.wf) {a : Nat} (ha : 4096 ≤ a) : m.read a = resetByte a := by
  induction m with
  | nil => rfl
  | cons p m ih =>
    have hp := (h.2 p (by simp)).1
    have hm : Memory.wf m := ⟨(List.pairwise_cons.1 h.1).2, fun q hq => h.2 q (by simp [hq])⟩
    simp [read, show p.1 ≠ a by omega, ih hm]

end Sys2Proof.Machine.Memory
end

