-- ==== Sys2Proof/Laws/State.lean ====
section
/-! SUPPORT. Each state update, field by field: what it writes and what it leaves, so that no proof unfolds a record
update. And reading a register after a write. -/

namespace Sys2Proof.Machine

variable (s : State)

@[simp] theorem State.setV_mem (k : Reg) (b : Byte) : (s.setV k b).mem = s.mem := rfl
@[simp] theorem State.setV_V (k : Reg) (b : Byte) : (s.setV k b).V = s.V.set k.val b k.isLt := rfl
@[simp] theorem State.setV_I (k : Reg) (b : Byte) : (s.setV k b).I = s.I := rfl
@[simp] theorem State.setV_pc (k : Reg) (b : Byte) : (s.setV k b).pc = s.pc := rfl
@[simp] theorem State.setV_stack (k : Reg) (b : Byte) : (s.setV k b).stack = s.stack := rfl
@[simp] theorem State.setV_sp (k : Reg) (b : Byte) : (s.setV k b).sp = s.sp := rfl
@[simp] theorem State.setV_DT (k : Reg) (b : Byte) : (s.setV k b).DT = s.DT := rfl
@[simp] theorem State.setV_ST (k : Reg) (b : Byte) : (s.setV k b).ST = s.ST := rfl
@[simp] theorem State.setV_disp (k : Reg) (b : Byte) : (s.setV k b).disp = s.disp := rfl
@[simp] theorem State.setV_redraw (k : Reg) (b : Byte) : (s.setV k b).redraw = s.redraw := rfl
@[simp] theorem State.setV_keys (k : Reg) (b : Byte) : (s.setV k b).keys = s.keys := rfl
@[simp] theorem State.setV_mode (k : Reg) (b : Byte) : (s.setV k b).mode = s.mode := rfl
@[simp] theorem State.setV_inputs (k : Reg) (b : Byte) : (s.setV k b).inputs = s.inputs := rfl
@[simp] theorem State.setV_rand (k : Reg) (b : Byte) : (s.setV k b).rand = s.rand := rfl
@[simp] theorem State.setV_draws (k : Reg) (b : Byte) : (s.setV k b).draws = s.draws := rfl

@[simp] theorem State.advance_mem : s.advance.mem = s.mem := rfl
@[simp] theorem State.advance_V : s.advance.V = s.V := rfl
@[simp] theorem State.advance_I : s.advance.I = s.I := rfl
@[simp] theorem State.advance_pc : s.advance.pc = s.pc + 2 := rfl
@[simp] theorem State.advance_stack : s.advance.stack = s.stack := rfl
@[simp] theorem State.advance_sp : s.advance.sp = s.sp := rfl
@[simp] theorem State.advance_DT : s.advance.DT = s.DT := rfl
@[simp] theorem State.advance_ST : s.advance.ST = s.ST := rfl
@[simp] theorem State.advance_disp : s.advance.disp = s.disp := rfl
@[simp] theorem State.advance_redraw : s.advance.redraw = s.redraw := rfl
@[simp] theorem State.advance_keys : s.advance.keys = s.keys := rfl
@[simp] theorem State.advance_mode : s.advance.mode = s.mode := rfl
@[simp] theorem State.advance_inputs : s.advance.inputs = s.inputs := rfl
@[simp] theorem State.advance_rand : s.advance.rand = s.rand := rfl
@[simp] theorem State.advance_draws : s.advance.draws = s.draws := rfl

@[simp] theorem State.jump_mem (a : Word) : (s.jump a).mem = s.mem := rfl
@[simp] theorem State.jump_V (a : Word) : (s.jump a).V = s.V := rfl
@[simp] theorem State.jump_I (a : Word) : (s.jump a).I = s.I := rfl
@[simp] theorem State.jump_pc (a : Word) : (s.jump a).pc = a := rfl
@[simp] theorem State.jump_stack (a : Word) : (s.jump a).stack = s.stack := rfl
@[simp] theorem State.jump_sp (a : Word) : (s.jump a).sp = s.sp := rfl
@[simp] theorem State.jump_DT (a : Word) : (s.jump a).DT = s.DT := rfl
@[simp] theorem State.jump_ST (a : Word) : (s.jump a).ST = s.ST := rfl
@[simp] theorem State.jump_disp (a : Word) : (s.jump a).disp = s.disp := rfl
@[simp] theorem State.jump_redraw (a : Word) : (s.jump a).redraw = s.redraw := rfl
@[simp] theorem State.jump_keys (a : Word) : (s.jump a).keys = s.keys := rfl
@[simp] theorem State.jump_mode (a : Word) : (s.jump a).mode = s.mode := rfl
@[simp] theorem State.jump_inputs (a : Word) : (s.jump a).inputs = s.inputs := rfl
@[simp] theorem State.jump_rand (a : Word) : (s.jump a).rand = s.rand := rfl
@[simp] theorem State.jump_draws (a : Word) : (s.jump a).draws = s.draws := rfl

@[simp] theorem State.skipIf_mem (c : Bool) : (s.skipIf c).mem = s.mem := rfl
@[simp] theorem State.skipIf_V (c : Bool) : (s.skipIf c).V = s.V := rfl
@[simp] theorem State.skipIf_I (c : Bool) : (s.skipIf c).I = s.I := rfl
@[simp] theorem State.skipIf_pc (c : Bool) : (s.skipIf c).pc = s.pc + (if c then 4 else 2) := rfl
@[simp] theorem State.skipIf_stack (c : Bool) : (s.skipIf c).stack = s.stack := rfl
@[simp] theorem State.skipIf_sp (c : Bool) : (s.skipIf c).sp = s.sp := rfl
@[simp] theorem State.skipIf_DT (c : Bool) : (s.skipIf c).DT = s.DT := rfl
@[simp] theorem State.skipIf_ST (c : Bool) : (s.skipIf c).ST = s.ST := rfl
@[simp] theorem State.skipIf_disp (c : Bool) : (s.skipIf c).disp = s.disp := rfl
@[simp] theorem State.skipIf_redraw (c : Bool) : (s.skipIf c).redraw = s.redraw := rfl
@[simp] theorem State.skipIf_keys (c : Bool) : (s.skipIf c).keys = s.keys := rfl
@[simp] theorem State.skipIf_mode (c : Bool) : (s.skipIf c).mode = s.mode := rfl
@[simp] theorem State.skipIf_inputs (c : Bool) : (s.skipIf c).inputs = s.inputs := rfl
@[simp] theorem State.skipIf_rand (c : Bool) : (s.skipIf c).rand = s.rand := rfl
@[simp] theorem State.skipIf_draws (c : Bool) : (s.skipIf c).draws = s.draws := rfl

@[simp] theorem State.takeError_mem (e : ErrorKind) (w : Option Word) (f : FaultInfo) : (s.takeError e w f).mem = s.mem := rfl
@[simp] theorem State.takeError_V (e : ErrorKind) (w : Option Word) (f : FaultInfo) : (s.takeError e w f).V = s.V := rfl
@[simp] theorem State.takeError_I (e : ErrorKind) (w : Option Word) (f : FaultInfo) : (s.takeError e w f).I = s.I := rfl
@[simp] theorem State.takeError_pc (e : ErrorKind) (w : Option Word) (f : FaultInfo) : (s.takeError e w f).pc = s.pc := rfl
@[simp] theorem State.takeError_stack (e : ErrorKind) (w : Option Word) (f : FaultInfo) : (s.takeError e w f).stack = s.stack := rfl
@[simp] theorem State.takeError_sp (e : ErrorKind) (w : Option Word) (f : FaultInfo) : (s.takeError e w f).sp = s.sp := rfl
@[simp] theorem State.takeError_DT (e : ErrorKind) (w : Option Word) (f : FaultInfo) : (s.takeError e w f).DT = s.DT := rfl
@[simp] theorem State.takeError_ST (e : ErrorKind) (w : Option Word) (f : FaultInfo) : (s.takeError e w f).ST = s.ST := rfl
@[simp] theorem State.takeError_disp (e : ErrorKind) (w : Option Word) (f : FaultInfo) : (s.takeError e w f).disp = s.disp := rfl
@[simp] theorem State.takeError_redraw (e : ErrorKind) (w : Option Word) (f : FaultInfo) : (s.takeError e w f).redraw = s.redraw := rfl
@[simp] theorem State.takeError_keys (e : ErrorKind) (w : Option Word) (f : FaultInfo) : (s.takeError e w f).keys = s.keys := rfl
@[simp] theorem State.takeError_mode (e : ErrorKind) (w : Option Word) (f : FaultInfo) : (s.takeError e w f).mode = .faulted { kind := e, pc := s.pc, word := w, info := f } := rfl
@[simp] theorem State.takeError_inputs (e : ErrorKind) (w : Option Word) (f : FaultInfo) : (s.takeError e w f).inputs = s.inputs := rfl
@[simp] theorem State.takeError_rand (e : ErrorKind) (w : Option Word) (f : FaultInfo) : (s.takeError e w f).rand = s.rand := rfl
@[simp] theorem State.takeError_draws (e : ErrorKind) (w : Option Word) (f : FaultInfo) : (s.takeError e w f).draws = s.draws := rfl

@[simp] theorem State.raise_mem (e : ErrorKind) (f : FaultInfo) : (s.raise e f).mem = s.mem := rfl
@[simp] theorem State.raise_V (e : ErrorKind) (f : FaultInfo) : (s.raise e f).V = s.V := rfl
@[simp] theorem State.raise_I (e : ErrorKind) (f : FaultInfo) : (s.raise e f).I = s.I := rfl
@[simp] theorem State.raise_pc (e : ErrorKind) (f : FaultInfo) : (s.raise e f).pc = s.pc := rfl
@[simp] theorem State.raise_stack (e : ErrorKind) (f : FaultInfo) : (s.raise e f).stack = s.stack := rfl
@[simp] theorem State.raise_sp (e : ErrorKind) (f : FaultInfo) : (s.raise e f).sp = s.sp := rfl
@[simp] theorem State.raise_DT (e : ErrorKind) (f : FaultInfo) : (s.raise e f).DT = s.DT := rfl
@[simp] theorem State.raise_ST (e : ErrorKind) (f : FaultInfo) : (s.raise e f).ST = s.ST := rfl
@[simp] theorem State.raise_disp (e : ErrorKind) (f : FaultInfo) : (s.raise e f).disp = s.disp := rfl
@[simp] theorem State.raise_redraw (e : ErrorKind) (f : FaultInfo) : (s.raise e f).redraw = s.redraw := rfl
@[simp] theorem State.raise_keys (e : ErrorKind) (f : FaultInfo) : (s.raise e f).keys = s.keys := rfl
@[simp] theorem State.raise_mode (e : ErrorKind) (f : FaultInfo) : (s.raise e f).mode = .faulted { kind := e, pc := s.pc, word := some s.currentWord, info := f } := rfl
@[simp] theorem State.raise_inputs (e : ErrorKind) (f : FaultInfo) : (s.raise e f).inputs = s.inputs := rfl
@[simp] theorem State.raise_rand (e : ErrorKind) (f : FaultInfo) : (s.raise e f).rand = s.rand := rfl
@[simp] theorem State.raise_draws (e : ErrorKind) (f : FaultInfo) : (s.raise e f).draws = s.draws := rfl

@[simp] theorem State.storeBytes_mem (a : Nat) (bs : List Byte) : (s.storeBytes a bs).mem = s.mem.writeList a bs := rfl
@[simp] theorem State.storeBytes_V (a : Nat) (bs : List Byte) : (s.storeBytes a bs).V = s.V := rfl
@[simp] theorem State.storeBytes_I (a : Nat) (bs : List Byte) : (s.storeBytes a bs).I = s.I := rfl
@[simp] theorem State.storeBytes_pc (a : Nat) (bs : List Byte) : (s.storeBytes a bs).pc = s.pc := rfl
@[simp] theorem State.storeBytes_stack (a : Nat) (bs : List Byte) : (s.storeBytes a bs).stack = s.stack := rfl
@[simp] theorem State.storeBytes_sp (a : Nat) (bs : List Byte) : (s.storeBytes a bs).sp = s.sp := rfl
@[simp] theorem State.storeBytes_DT (a : Nat) (bs : List Byte) : (s.storeBytes a bs).DT = s.DT := rfl
@[simp] theorem State.storeBytes_ST (a : Nat) (bs : List Byte) : (s.storeBytes a bs).ST = s.ST := rfl
@[simp] theorem State.storeBytes_disp (a : Nat) (bs : List Byte) : (s.storeBytes a bs).disp = s.disp := rfl
@[simp] theorem State.storeBytes_redraw (a : Nat) (bs : List Byte) : (s.storeBytes a bs).redraw = s.redraw := rfl
@[simp] theorem State.storeBytes_keys (a : Nat) (bs : List Byte) : (s.storeBytes a bs).keys = s.keys := rfl
@[simp] theorem State.storeBytes_mode (a : Nat) (bs : List Byte) : (s.storeBytes a bs).mode = s.mode := rfl
@[simp] theorem State.storeBytes_inputs (a : Nat) (bs : List Byte) : (s.storeBytes a bs).inputs = s.inputs := rfl
@[simp] theorem State.storeBytes_rand (a : Nat) (bs : List Byte) : (s.storeBytes a bs).rand = s.rand := rfl
@[simp] theorem State.storeBytes_draws (a : Nat) (bs : List Byte) : (s.storeBytes a bs).draws = s.draws := rfl

/-- Reading a register after a write: the value written at that register, the old value elsewhere. -/
theorem State.getV_setV (k j : Reg) (b : Byte) : (s.setV k b).getV j = if j = k then b else s.getV j := by
  simp only [State.getV, State.setV, Vector.getElem_set, Fin.ext_iff, eq_comm]

@[simp] theorem State.getV_setV_self (k : Reg) (b : Byte) : (s.setV k b).getV k = b := by
  simp [State.getV_setV]

@[simp] theorem State.getV_setV_of_ne {k j : Reg} (b : Byte) (h : j ≠ k) : (s.setV k b).getV j = s.getV j := by
  simp [State.getV_setV, h]

@[simp] theorem State.getV_advance (k : Reg) : s.advance.getV k = s.getV k := rfl
@[simp] theorem State.getV_jump (a : Word) (k : Reg) : (s.jump a).getV k = s.getV k := rfl
@[simp] theorem State.getV_skipIf (c : Bool) (k : Reg) : (s.skipIf c).getV k = s.getV k := rfl
@[simp] theorem State.getV_takeError (e : ErrorKind) (w : Option Word) (f : FaultInfo) (k : Reg) :
    (s.takeError e w f).getV k = s.getV k := rfl
@[simp] theorem State.getV_raise (e : ErrorKind) (f : FaultInfo) (k : Reg) : (s.raise e f).getV k = s.getV k := rfl
@[simp] theorem State.getV_storeBytes (a : Nat) (bs : List Byte) (k : Reg) :
    (s.storeBytes a bs).getV k = s.getV k := rfl

end Sys2Proof.Machine
end

