-- ==== Sys2Proof/Laws/Ops.lean ====
section
/-! SUPPORT. One lemma for each shared operation, saying once what it answers. -/

namespace Sys2Proof.Machine

/-! ## Arithmetic (spec/42_alu.md R172) -/

@[simp] theorem toNat_sumByte (a b : Byte) : (sumByte a b).toNat = (a.toNat + b.toNat) % 256 := by
  simp [sumByte]

/-- The difference mod 256, as the rules write it: `a - b + 256` when `a < b`. -/
theorem toNat_diffByte (a b : Byte) :
    (diffByte a b).toNat = if a.toNat < b.toNat then a.toNat + 256 - b.toNat else a.toNat - b.toNat := by
  have := a.isLt
  have := b.isLt
  simp only [diffByte, BitVec.toNat_ofNat]
  split <;> omega

@[simp] theorem toNat_flagByte (b : Bool) : (flagByte b).toNat = if b then 1 else 0 := by
  cases b <;> rfl

/-- The carry is 1 exactly when the exact sum exceeds 255. -/
theorem toNat_carryFlag (a b : Byte) : (carryFlag a b).toNat = if a.toNat + b.toNat > 255 then 1 else 0 := by
  simp [carryFlag]

/-- NOT borrow is 0 exactly when the minuend is less than the subtrahend. -/
theorem toNat_notBorrowFlag (a b : Byte) : (notBorrowFlag a b).toNat = if a.toNat < b.toNat then 0 else 1 := by
  by_cases h : a.toNat < b.toNat
  · simp [notBorrowFlag, h]
  · simp [notBorrowFlag, h]

theorem toNat_shrFlag (v : Byte) : (shrFlag v).toNat = v.toNat % 2 := by
  simp [shrFlag]

theorem toNat_shlFlag (v : Byte) : (shlFlag v).toNat = v.toNat / 128 := by
  have := v.isLt
  simp only [shlFlag, BitVec.toNat_and, BitVec.toNat_ushiftRight, Nat.shiftRight_eq_div_pow]
  rw [show BitVec.toNat (1 : Byte) = 2 ^ 1 - 1 by decide, Nat.and_two_pow_sub_one_eq_mod]
  omega

theorem toNat_shrByte (v : Byte) : (shrByte v).toNat = v.toNat / 2 := by
  simp [shrByte, Nat.shiftRight_eq_div_pow]

theorem toNat_shlByte (v : Byte) : (shlByte v).toNat = v.toNat * 2 % 256 := by
  simp [shlByte, Nat.shiftLeft_eq]

@[simp] theorem toNat_addrWord (nnn : Addr) : (addrWord nnn).toNat = nnn.toNat := by
  have := nnn.isLt
  simp only [addrWord, BitVec.toNat_setWidth]
  omega

/-! ## The fetched word, and errors -/

/-- The word under execution is the one the fetch reads at pc (20_memory.md R61). -/
theorem currentWord_eq (s : State) : s.currentWord =
    BitVec.ofNat 16 ((s.mem.read s.pc.toNat).toNat * 256 + (s.mem.read (s.pc.toNat + 1)).toNat) := by
  simp only [State.currentWord, Memory.word, wordOfBytes_eq]

/-- The range check answers the error when the block is not empty and its last byte lies at 4096 or above, and what
follows it otherwise. -/
theorem guardRange_of_in_range (s t : State) {first count : Nat} (h : count = 0 ∨ first + count - 1 < 4096) :
    s.guardRange first count t = t := by
  unfold State.guardRange
  rw [if_neg (by omega)]

theorem guardRange_of_out_of_range (s t : State) {first count : Nat} (h0 : 0 < count)
    (h : 4096 ≤ first + count - 1) :
    s.guardRange first count t = s.raise .addressRangeError (.address (max first 0x1000)) := by
  unfold State.guardRange
  rw [if_pos ⟨h0, h⟩]

/-- SetI up to 0xFFFF writes I, and above it raises (43_index_memory.md R196). -/
theorem setI_of_le (s : State) {v : Nat} (f : State → State) (h : v ≤ 0xFFFF) :
    s.setI v f = f { s with I := BitVec.ofNat 16 v } := by
  unfold State.setI
  rw [if_neg (by omega)]

theorem setI_of_gt (s : State) {v : Nat} (f : State → State) (h : 0xFFFF < v) :
    s.setI v f = s.raise .addressRangeError (.address v) := by
  unfold State.setI
  rw [if_pos (by omega)]

/-! ## The call stack -/

theorem push_of_lt (s : State) (a : Word) (h : s.sp.val < 16) :
    s.push a = some { s with stack := s.stack.set s.sp.val a h, sp := ⟨s.sp.val + 1, by omega⟩ } := by
  simp [State.push, h]

theorem push_full (s : State) (a : Word) (h : s.sp.val = 16) : s.push a = none := by
  simp [State.push, h]

theorem pop_of_pos (s : State) (j : Fin 16) (h : s.sp.val = j.val + 1) :
    s.pop = some (s.stack[j.val], { s with sp := j.castSucc }) := by
  have h1 : s.sp = ⟨j.val + 1, by omega⟩ := Fin.ext h
  simp [State.pop, h1]
  rfl

theorem pop_empty (s : State) (h : s.sp.val = 0) : s.pop = none := by
  simp [State.pop, h]

/-! ## Block transfers -/

theorem length_lowRegs (s : State) (x : Reg) : (s.lowRegs x).length = x.val + 1 := by
  simp [State.lowRegs]

theorem getElem?_lowRegs (s : State) (x : Reg) (k : Nat) :
    (s.lowRegs x)[k]? = if h : k ≤ x.val then some (s.V[k]'(by omega)) else none := by
  by_cases h : k ≤ x.val
  · simp [State.lowRegs, h]
  · simp [State.lowRegs, h, Nat.lt_succ_iff]

/-- After the load of `n` bytes, register k is the byte at a + k for k below n, and as before above. -/
theorem getElem_loadInto (m : Memory) (a n : Nat) (v : Vector Byte 16) (k : Nat) (hk : k < 16) :
    (loadInto m a n v)[k] = if k < n then m.read (a + k) else v[k] := by
  induction n with
  | zero => simp [loadInto]
  | succ n ih =>
    simp only [loadInto, Vector.getElem_setIfInBounds]
    by_cases h : n = k
    · simp [h]
    · rw [if_neg h, ih]
      by_cases h2 : k < n
      · simp [h2, show k < n + 1 by omega]
      · simp [h2, show ¬ k < n + 1 by omega]

/-! ## Keys, the wait, the timers -/

theorem keyOf_of_lt {v : Byte} {k : Key} (h : v.toNat = k.val) : keyOf v = some k := by
  have hk := k.isLt
  simp only [keyOf, show v.toNat < 16 by omega, dif_pos]
  exact congrArg some (Fin.ext h)

theorem keyOf_of_gt {v : Byte} (h : 15 < v.toNat) : keyOf v = none := by
  simp only [keyOf, show ¬ v.toNat < 16 by omega, dif_neg, not_false_iff]

/-- The candidates of a wait are the keys that went from released to pressed (45_timers_input.md R236). -/
theorem mem_newlyPressed (old new : KeyVec) (k : Key) :
    k ∈ newlyPressed old new ↔ new.getLsbD k.val = true ∧ old.getLsbD k.val = false := by
  have h : k ∈ allKeys := by revert k; decide
  simp [newlyPressed, keyDown, h]

/-- WAIT_PICK picks a member of the candidates whenever there is one, whatever the free value is. -/
theorem waitPick_mem (draw : Nat) (ks : List Key) (h : ks ≠ []) : ∃ k ∈ ks, waitPick draw ks = some k := by
  match ks, h with
  | [k], _ => exact ⟨k, by simp, rfl⟩
  | k :: j :: ks, _ =>
    have hlt : Config.waitPick draw % (k :: j :: ks).length < (k :: j :: ks).length :=
      Nat.mod_lt _ (by simp)
    exact ⟨(k :: j :: ks)[Config.waitPick draw % (k :: j :: ks).length], List.getElem_mem hlt,
      List.getElem?_eq_getElem hlt⟩

@[simp] theorem toNat_tickTimer (t : Byte) : (tickTimer t).toNat = t.toNat - 1 := by
  have := t.isLt
  simp only [tickTimer, BitVec.toNat_ofNat]
  omega

/-! ## The display -/

@[simp] theorem Display.get_blank (c : Fin 64) (r : Fin 32) : Display.blank.get c r = false := by
  simp [Display.blank, Display.get]

/-- A flip inverts its pixel and leaves every other. -/
theorem Display.get_flip (d : Display) (c c' : Fin 64) (r r' : Fin 32) :
    (d.flip c r).get c' r' = if c' = c ∧ r' = r then !d.get c r else d.get c' r' := by
  simp only [Display.flip, Display.get, Vector.getElem_set, Fin.ext_iff]
  by_cases hc : c.val = c'.val
  · by_cases hr : r.val = r'.val
    · simp [hc, hr]
    · simp [hc, hr, Ne.symm hr]
  · simp [hc, Ne.symm hc]

/-! ## The cycle -/

/-- The fetch check lets an instruction be fetched exactly at an even pc in [0x200, 0xFFE] (40_execution_cycle.md R122). -/
theorem fetchCheck_eq_none (pc : Nat) :
    fetchCheck strictPc pc = none ↔ 0x200 ≤ pc ∧ pc ≤ 0xFFE ∧ pc % 2 = 0 := by
  unfold fetchCheck strictPc
  split
  · simp; omega
  · split
    · simp_all; omega
    · simp_all

/-- In mode Running a fetchable pc runs exec of the decoded word. -/
theorem cycle_of_decode {s : State} {i : Instr} (hm : s.mode = .running) (hp : fetchCheck strictPc s.pc.toNat = none)
    (hd : decode s.currentWord = .ok i) : s.cycle = exec i s := by
  simp [State.cycle, hm, State.runInstruction, hp, hd]

end Sys2Proof.Machine
end

