-- ==== Sys2Proof/Laws/Draw.lean ====
section
/-! SUPPORT. What drawing does, without its loop: the pixels a sprite covers flip, and it collides when one of them was 1.
Drawing one set of pixels and then another, disjoint, one is drawing their union, so a row and a sprite follow from one
bit. -/

namespace Sys2Proof.Machine

/-- From `cv` to `cv'` exactly the pixels of `P` flip, and a collision is added exactly when one of them was 1. -/
structure Draws (P : Fin 64 → Fin 32 → Prop) (cv cv' : Canvas) : Prop where
  flipped : ∀ c r, P c r → cv'.disp.get c r = !cv.disp.get c r
  kept : ∀ c r, ¬ P c r → cv'.disp.get c r = cv.disp.get c r
  collides : cv'.collide = true ↔ cv.collide = true ∨ ∃ c r, P c r ∧ cv.disp.get c r = true

namespace Draws

theorem nothing (cv : Canvas) : Draws (fun _ _ => False) cv cv where
  flipped _ _ h := h.elim
  kept _ _ _ := rfl
  collides := by simp

theorem congr {P Q : Fin 64 → Fin 32 → Prop} {cv cv' : Canvas} (h : Draws P cv cv') (hPQ : ∀ c r, P c r ↔ Q c r) :
    Draws Q cv cv' := by
  have : P = Q := by funext c r; exact propext (hPQ c r)
  exact this ▸ h

/-- Drawing `P` and then `Q`, which has no pixel of `P`, is drawing both. -/
theorem trans {P Q : Fin 64 → Fin 32 → Prop} {cv cv' cv'' : Canvas} (h : Draws P cv cv') (h' : Draws Q cv' cv'')
    (hd : ∀ c r, P c r → ¬ Q c r) : Draws (fun c r => P c r ∨ Q c r) cv cv'' where
  flipped c r hpq := by
    rcases hpq with hp | hq
    · rw [h'.kept c r (hd c r hp), h.flipped c r hp]
    · rw [h'.flipped c r hq, h.kept c r fun hp => hd c r hp hq]
  kept c r hpq := by
    rw [h'.kept c r fun hq => hpq (.inr hq), h.kept c r fun hp => hpq (.inl hp)]
  collides := by
    rw [h'.collides, h.collides, or_assoc]
    refine or_congr_right ⟨?_, ?_⟩
    · rintro (⟨c, r, hp, hv⟩ | ⟨c, r, hq, hv⟩)
      · exact ⟨c, r, .inl hp, hv⟩
      · exact ⟨c, r, .inr hq, by rwa [h.kept c r fun hp => hd c r hp hq] at hv⟩
    · rintro ⟨c, r, hp | hq, hv⟩
      · exact .inl ⟨c, r, hp, hv⟩
      · exact .inr ⟨c, r, hq, by rwa [h.kept c r fun hp => hd c r hp hq]⟩

end Draws

/-- The pixel of bit `col` of a sprite byte at (px, py), if the bit is 1 and the pixel visible. -/
def BitPixel (edge : Config.EdgeMode) (b : Byte) (px py col : Nat) (c : Fin 64) (r : Fin 32) : Prop :=
  spriteBit b col = true ∧ pixelAt edge (px + col) py = some (c, r)

/-- The pixels of a sprite's rows from (px, py). -/
def SpritePixels (edge : Config.EdgeMode) (bs : List Byte) (px py : Nat) (c : Fin 64) (r : Fin 32) : Prop :=
  ∃ (row : Nat) (b : Byte), bs[row]? = some b ∧ ∃ col < 8, BitPixel edge b px (py + row) col c r

theorem drawBit_draws (edge : Config.EdgeMode) (b : Byte) (px py col : Nat) (cv : Canvas) :
    Draws (BitPixel edge b px py col) cv (drawBit edge b px py cv col) := by
  unfold drawBit
  split
  · rename_i hb
    split
    · rename_i c r hpix
      have hP : ∀ c' r', BitPixel edge b px py col c' r' ↔ c' = c ∧ r' = r := by
        intro c' r'
        simp [BitPixel, hb, hpix, eq_comm]
      refine ⟨fun c' r' h => ?_, fun c' r' h => ?_, ?_⟩
      · obtain ⟨rfl, rfl⟩ := (hP c' r').1 h
        simp [Display.get_flip]
      · simp [Display.get_flip, mt (hP c' r').2 h]
      · simp [hP]
    · rename_i hpix
      exact (Draws.nothing cv).congr fun c r => by simp [BitPixel, hpix]
  · rename_i hb
    exact (Draws.nothing cv).congr fun c r => by simp [BitPixel, hb]

/-- Where a pixel is visible, its column and row are the coordinates mod 64 and mod 32. -/
theorem pixelAt_some {edge : Config.EdgeMode} {px py : Nat} {c : Fin 64} {r : Fin 32}
    (h : pixelAt edge px py = some (c, r)) : c.val = px % 64 ∧ r.val = py % 32 := by
  cases edge with
  | wrap =>
    simp only [pixelAt, Option.some.injEq, Prod.mk.injEq] at h
    exact ⟨(congrArg Fin.val h.1).symm, (congrArg Fin.val h.2).symm⟩
  | clip =>
    simp only [pixelAt] at h
    split at h
    · rename_i hlt
      simp only [Option.some.injEq, Prod.mk.injEq] at h
      have h1 := congrArg Fin.val h.1
      have h2 := congrArg Fin.val h.2
      simp only at h1 h2
      omega
    · cases h

/-- A sprite byte draws the pixels of its eight columns (44_display.md R211, R213). -/
theorem drawRow_draws (edge : Config.EdgeMode) (px py : Nat) (b : Byte) (cv : Canvas) :
    Draws (fun c r => ∃ col < 8, BitPixel edge b px py col c r) cv (drawRow edge px py b cv) := by
  suffices h : ∀ n ≤ 8, Draws (fun c r => ∃ col < n, BitPixel edge b px py col c r) cv
      ((List.range n).foldl (drawBit edge b px py) cv) from h 8 (Nat.le_refl 8)
  intro n
  induction n with
  | zero => exact fun _ => (Draws.nothing cv).congr fun c r => by simp
  | succ n ih =>
    intro hn
    rw [List.range_succ, List.foldl_append]
    refine ((ih (by omega)).trans (drawBit_draws edge b px py n _) ?_).congr fun c r => ?_
    · rintro c r ⟨col, hcol, hp⟩ hq
      have h1 := pixelAt_some hp.2
      have h2 := pixelAt_some hq.2
      omega
    · constructor
      · rintro (⟨col, hcol, hp⟩ | hp)
        · exact ⟨col, by omega, hp⟩
        · exact ⟨n, by omega, hp⟩
      · rintro ⟨col, hcol, hp⟩
        rcases Nat.lt_succ_iff_lt_or_eq.1 hcol with hlt | rfl
        · exact .inl ⟨col, hlt, hp⟩
        · exact .inr hp

/-- A sprite of at most 32 bytes draws the pixels of its rows: no pixel twice, so the order does not matter
(44_display.md R211, R212). -/
theorem drawSprite_draws (edge : Config.EdgeMode) (bs : List Byte) (px py : Nat) (cv : Canvas) (h : bs.length ≤ 32) :
    Draws (SpritePixels edge bs px py) cv (drawSprite edge px py bs cv) := by
  induction bs generalizing py cv with
  | nil => exact (Draws.nothing cv).congr fun c r => by simp [SpritePixels]
  | cons b bs ih =>
    simp only [List.length_cons] at h
    refine ((drawRow_draws edge px py b cv).trans (ih (py + 1) _ (by omega)) ?_).congr fun c r => ?_
    · rintro c r ⟨col, hcol, hp⟩ ⟨row, b', hrow, col', hcol', hq⟩
      have h1 := pixelAt_some hp.2
      have h2 := pixelAt_some hq.2
      have h3 := (List.getElem?_eq_some_iff.1 hrow).1
      omega
    · constructor
      · rintro (⟨col, hcol, hp⟩ | ⟨row, b', hrow, hq⟩)
        · exact ⟨0, b, rfl, col, hcol, hp⟩
        · exact ⟨row + 1, b', hrow, by rwa [show py + (row + 1) = py + 1 + row by omega]⟩
      · rintro ⟨row, b', hrow, hq⟩
        cases row with
        | zero =>
          simp only [List.getElem?_cons_zero, Option.some.injEq] at hrow
          subst hrow
          exact .inl hq
        | succ row =>
          exact .inr ⟨row, b', hrow, by rwa [show py + 1 + row = py + (row + 1) by omega]⟩

end Sys2Proof.Machine
end

