-- ==== Sys2Proof/Laws/PerInstr.lean ====
section
/-! SUPPORT. Facts about every instruction as syntax, one lemma for each constructor. `EncodeLegal`: the canonical word of
the instruction is a legal word by the list of spec/30_encoding.md R100. -/

namespace Sys2Proof.Laws.EncodeLegal

/-- The canonical word is legal (R100). -/
def Statement (i : Instr) : Prop := wordLegal (encode i) = true

theorem cls : Statement .cls := by unfold Statement; decide

theorem ret : Statement .ret := by unfold Statement; decide

theorem jp (nnn : Addr) : Statement (.jp nnn) := by
  simp [Statement, encode, wordLegal_eq]

theorem call (nnn : Addr) : Statement (.call nnn) := by
  simp [Statement, encode, wordLegal_eq]

theorem seByte (x : Reg) (nn : Byte) : Statement (.seByte x nn) := by
  simp [Statement, encode, wordLegal_eq]

theorem sneByte (x : Reg) (nn : Byte) : Statement (.sneByte x nn) := by
  simp [Statement, encode, wordLegal_eq]

theorem seReg (x y : Reg) : Statement (.seReg x y) := by
  simp [Statement, encode, wordLegal_eq]

theorem ldByte (x : Reg) (nn : Byte) : Statement (.ldByte x nn) := by
  simp [Statement, encode, wordLegal_eq]

theorem addByte (x : Reg) (nn : Byte) : Statement (.addByte x nn) := by
  simp [Statement, encode, wordLegal_eq]

theorem ldReg (x y : Reg) : Statement (.ldReg x y) := by
  simp [Statement, encode, wordLegal_eq, class8Legal]

theorem orReg (x y : Reg) : Statement (.orReg x y) := by
  simp [Statement, encode, wordLegal_eq, class8Legal]

theorem andReg (x y : Reg) : Statement (.andReg x y) := by
  simp [Statement, encode, wordLegal_eq, class8Legal]

theorem xorReg (x y : Reg) : Statement (.xorReg x y) := by
  simp [Statement, encode, wordLegal_eq, class8Legal]

theorem addReg (x y : Reg) : Statement (.addReg x y) := by
  simp [Statement, encode, wordLegal_eq, class8Legal]

theorem subReg (x y : Reg) : Statement (.subReg x y) := by
  simp [Statement, encode, wordLegal_eq, class8Legal]

theorem shr (x y : Reg) : Statement (.shr x y) := by
  simp [Statement, encode, wordLegal_eq, class8Legal]

theorem subn (x y : Reg) : Statement (.subn x y) := by
  simp [Statement, encode, wordLegal_eq, class8Legal]

theorem shl (x y : Reg) : Statement (.shl x y) := by
  simp [Statement, encode, wordLegal_eq, class8Legal]

theorem sneReg (x y : Reg) : Statement (.sneReg x y) := by
  simp [Statement, encode, wordLegal_eq]

theorem ldI (nnn : Addr) : Statement (.ldI nnn) := by
  simp [Statement, encode, wordLegal_eq]

theorem jpV0 (nnn : Addr) : Statement (.jpV0 nnn) := by
  simp [Statement, encode, wordLegal_eq]

theorem rnd (x : Reg) (nn : Byte) : Statement (.rnd x nn) := by
  simp [Statement, encode, wordLegal_eq]

theorem drw (x y : Reg) (n : Nibble) : Statement (.drw x y n) := by
  simp [Statement, encode, wordLegal_eq]

theorem skp (x : Reg) : Statement (.skp x) := by
  simp [Statement, encode, wordLegal_eq, classELegal]

theorem sknp (x : Reg) : Statement (.sknp x) := by
  simp [Statement, encode, wordLegal_eq, classELegal]

theorem ldVxDT (x : Reg) : Statement (.ldVxDT x) := by
  simp [Statement, encode, wordLegal_eq, classFLegal]

theorem ldVxK (x : Reg) : Statement (.ldVxK x) := by
  simp [Statement, encode, wordLegal_eq, classFLegal]

theorem ldDTVx (x : Reg) : Statement (.ldDTVx x) := by
  simp [Statement, encode, wordLegal_eq, classFLegal]

theorem ldSTVx (x : Reg) : Statement (.ldSTVx x) := by
  simp [Statement, encode, wordLegal_eq, classFLegal]

theorem addI (x : Reg) : Statement (.addI x) := by
  simp [Statement, encode, wordLegal_eq, classFLegal]

theorem ldF (x : Reg) : Statement (.ldF x) := by
  simp [Statement, encode, wordLegal_eq, classFLegal]

theorem ldB (x : Reg) : Statement (.ldB x) := by
  simp [Statement, encode, wordLegal_eq, classFLegal]

theorem storeRegs (x : Reg) : Statement (.storeRegs x) := by
  simp [Statement, encode, wordLegal_eq, classFLegal]

theorem loadRegs (x : Reg) : Statement (.loadRegs x) := by
  simp [Statement, encode, wordLegal_eq, classFLegal]

end Sys2Proof.Laws.EncodeLegal
end

