-- ==== Sys2Proof/Laws/Step.lean ====
section
/-! SUPPORT. What a step whose next event is a Cycle does, whether the Cycle is listed or not: what the proofs about a
Cycle cite. -/

namespace Sys2Proof.Machine

/-- Such a step is the cycle of the state itself, or the delivery of a listed `Cycle(r)`. -/
theorem step_of_cycleNext {s : State} {rest : List HostEvent} (h : s.CycleNext rest) :
    (s.inputs = [] ∧ rest = [] ∧ step s = s.cycle) ∨ ∃ r, step s = { s with inputs := rest }.deliver (.cycle r) := by
  obtain ⟨hi, hr⟩ | ⟨r, hi⟩ := h
  · exact .inl ⟨hi, hr, by simp [step, hi]⟩
  · exact .inr ⟨r, by simp [step, hi]⟩

/-- An error that the mode, the pc and memory alone decide is taken by the step too, whatever byte its Cycle carries. -/
theorem step_takeError {s : State} {rest : List HostEvent} {kind : ErrorKind} {word : Option Word} {info : FaultInfo}
    (h : s.CycleNext rest)
    (hc : ∀ u : State, u.mode = s.mode → u.pc = s.pc → u.mem = s.mem → u.cycle = .next (u.takeError kind word info)) :
    step s = .next ({ s with inputs := rest }.takeError kind word info) := by
  obtain ⟨hi, rfl, hs⟩ | ⟨r, hs⟩ := step_of_cycleNext h
  · rw [hs, hc s rfl rfl rfl, ← hi]
  · exact hs.trans (congrArg (mapNext _) (hc { s with inputs := rest, rand := some r } rfl rfl rfl))

/-- The cycle of a state whose fetch check fails. -/
theorem cycle_of_fetchError {s : State} {kind : ErrorKind} {info : FaultInfo} (hm : s.mode = .running)
    (hp : fetchCheck strictPc s.pc.toNat = some (kind, info)) : s.cycle = .next (s.takeError kind none info) := by
  simp [State.cycle, hm, State.runInstruction, hp]

/-- The cycle of a state whose word has no instruction. -/
theorem cycle_of_decodeError {s : State} {r : Reject} (hm : s.mode = .running)
    (hp : fetchCheck strictPc s.pc.toNat = none) (hd : decode s.currentWord = .error r) :
    s.cycle = .next (s.takeError .decodeError (some s.currentWord) .none) := by
  simp [State.cycle, hm, State.runInstruction, hp, hd]

end Sys2Proof.Machine
end

