-- ==== Sys2Proof/Machine/Asm.lean ====
section
/-! DEFINITION. The assembler syntax of an instruction (spec/30_encoding.md R103): the textual mnemonic grammar, with
numbers in hex as `0x..`. No other definition of the model uses it. -/

namespace Sys2Proof.Machine

/-- One hexadecimal digit, as the register names write it (VA to VF for 10 to 15: spec/10_state.md R20). -/
def hexDigit (d : Nat) : String :=
  (["0", "1", "2", "3", "4", "5", "6", "7", "8", "9", "A", "B", "C", "D", "E", "F"][d]?).getD "?"

/-- `V` followed by one hex digit. -/
def asmReg (r : Reg) : String := "V" ++ hexDigit r.val

/-- `byte`: NN. -/
def asmByte (nn : Byte) : String := "0x" ++ hexDigit (nn.toNat / 16) ++ hexDigit (nn.toNat % 16)

/-- `nibble`: N. -/
def asmNibble (n : Nibble) : String := "0x" ++ hexDigit n.toNat

/-- `addr`: NNN. -/
def asmAddr (nnn : Addr) : String :=
  "0x" ++ hexDigit (nnn.toNat / 256) ++ hexDigit (nnn.toNat / 16 % 16) ++ hexDigit (nnn.toNat % 16)

/-- A mnemonic with two operands. -/
def asm2 (mn a b : String) : String := mn ++ " " ++ a ++ ", " ++ b

/-- The text of an instruction (R103). -/
def asmText : Instr → String
  | .cls => "CLS"
  | .ret => "RET"
  | .jp nnn => "JP " ++ asmAddr nnn
  | .call nnn => "CALL " ++ asmAddr nnn
  | .seByte x nn => asm2 "SE" (asmReg x) (asmByte nn)
  | .sneByte x nn => asm2 "SNE" (asmReg x) (asmByte nn)
  | .seReg x y => asm2 "SE" (asmReg x) (asmReg y)
  | .ldByte x nn => asm2 "LD" (asmReg x) (asmByte nn)
  | .addByte x nn => asm2 "ADD" (asmReg x) (asmByte nn)
  | .ldReg x y => asm2 "LD" (asmReg x) (asmReg y)
  | .orReg x y => asm2 "OR" (asmReg x) (asmReg y)
  | .andReg x y => asm2 "AND" (asmReg x) (asmReg y)
  | .xorReg x y => asm2 "XOR" (asmReg x) (asmReg y)
  | .addReg x y => asm2 "ADD" (asmReg x) (asmReg y)
  | .subReg x y => asm2 "SUB" (asmReg x) (asmReg y)
  | .shr x y => asm2 "SHR" (asmReg x) (asmReg y)
  | .subn x y => asm2 "SUBN" (asmReg x) (asmReg y)
  | .shl x y => asm2 "SHL" (asmReg x) (asmReg y)
  | .sneReg x y => asm2 "SNE" (asmReg x) (asmReg y)
  | .ldI nnn => asm2 "LD" "I" (asmAddr nnn)
  | .jpV0 nnn => asm2 "JP" "V0" (asmAddr nnn)
  | .rnd x nn => asm2 "RND" (asmReg x) (asmByte nn)
  | .drw x y n => asm2 "DRW" (asmReg x) (asmReg y) ++ ", " ++ asmNibble n
  | .skp x => "SKP " ++ asmReg x
  | .sknp x => "SKNP " ++ asmReg x
  | .ldVxDT x => asm2 "LD" (asmReg x) "DT"
  | .ldVxK x => asm2 "LD" (asmReg x) "K"
  | .ldDTVx x => asm2 "LD" "DT" (asmReg x)
  | .ldSTVx x => asm2 "LD" "ST" (asmReg x)
  | .addI x => asm2 "ADD" "I" (asmReg x)
  | .ldF x => asm2 "LD" "F" (asmReg x)
  | .ldB x => asm2 "LD" "B" (asmReg x)
  | .storeRegs x => asm2 "LD" "[I]" (asmReg x)
  | .loadRegs x => asm2 "LD" (asmReg x) "[I]"

end Sys2Proof.Machine
end

