-- ==== Sys2Proof/Tests/Slice0.lean ====
section
/-! SUPPORT. Tests, each about one step on a small state; expected results from spec/95_test_vectors.md and the examples
of the rules. And for every statement with hypotheses a state and operands that meet them. -/

namespace Sys2Proof.Tests

open Sys2Proof Sys2Proof.Machine

/-- An outcome is a next state with a property. -/
def gives (r : Result) (p : State → Bool) : Bool :=
  match r with
  | .next t => p t
  | .fault _ => false
  | .refused _ => false

/-- The reset state with registers set. -/
def regs (l : List (Reg × Byte)) : State := l.foldl (fun s p => s.setV p.1 p.2) State.reset

/-- One step of the machine with the word `w` put at pc. -/
def run (s : State) (w : Nat) (p : State → Bool) : Bool := gives (step (s.withFetchWord 16 w)) p

/-- The mode is Faulted with this record. -/
def faultIs (t : State) (k : ErrorKind) (pc : Word) (w : Option Word) (info : FaultInfo) : Bool :=
  t.mode == .faulted { kind := k, pc := pc, word := w, info := info }

/-! ## WellFormed: an illegal word for each check of 30_encoding.md R100, and its legal neighbours -/

theorem test_wordLegal_class0 : wordLegal 0x0123 = false ∧ wordLegal 0x0120 = true ∧ wordLegal 0x0FFE = true := by decide
theorem test_wordLegal_class8 : wordLegal 0x8008 = false ∧ wordLegal 0x800D = false ∧ wordLegal 0x800F = false ∧
    wordLegal 0x8007 = true ∧ wordLegal 0x800E = true := by decide
theorem test_wordLegal_classE : wordLegal 0xE09F = false ∧ wordLegal 0xE09E = true := by decide
theorem test_wordLegal_classF : wordLegal 0xF000 = false ∧ wordLegal 0xFFFF = false ∧ wordLegal 0xF033 = true := by decide

/-- The counts of R100: 14 sub-keys of class 0x0 (256 words each), 7 of class 0x8 (256 words each), 254 of class 0xE and
247 of class 0xF (16 words each): 13392 words. -/
theorem test_illegal_word_count :
    ((List.range 16).countP (!class0Legal ·), (List.range 16).countP (!class8Legal ·),
      (List.range 256).countP (!classELegal ·), (List.range 256).countP (!classFLegal ·)) = (14, 7, 254, 247) ∧
    14 * 256 + 7 * 256 + 254 * 16 + 247 * 16 = 13392 := by decide +kernel

/-! ## Decoding: one word for each row, written out from R94 to R98 -/

theorem test_decode_class0 : decode 0x00E0#16 = .ok .cls ∧ decode 0x0000#16 = .ok .cls ∧ decode 0x00EE#16 = .ok .ret ∧
    decode 0x0123#16 = .error (.class0 3#4) := by decide
theorem test_decode_jumps : decode 0x1234#16 = .ok (.jp 0x234#12) ∧ decode 0x2300#16 = .ok (.call 0x300#12) ∧
    decode 0xB300#16 = .ok (.jpV0 0x300#12) := by decide
theorem test_decode_skips : decode 0x3342#16 = .ok (.seByte 3 0x42#8) ∧ decode 0x4342#16 = .ok (.sneByte 3 0x42#8) ∧
    decode 0x5121#16 = .ok (.seReg 1 2) ∧ decode 0x912F#16 = .ok (.sneReg 1 2) := by decide
theorem test_decode_immediates : decode 0x6A2B#16 = .ok (.ldByte 10 0x2B#8) ∧ decode 0x7001#16 = .ok (.addByte 0 1#8) ∧
    decode 0xC30F#16 = .ok (.rnd 3 0x0F#8) := by decide
theorem test_decode_class8_logic : decode 0x8120#16 = .ok (.ldReg 1 2) ∧ decode 0x8121#16 = .ok (.orReg 1 2) ∧
    decode 0x8122#16 = .ok (.andReg 1 2) ∧ decode 0x8123#16 = .ok (.xorReg 1 2) := by decide
theorem test_decode_class8_arithmetic : decode 0x8014#16 = .ok (.addReg 0 1) ∧ decode 0x8015#16 = .ok (.subReg 0 1) ∧
    decode 0x8106#16 = .ok (.shr 1 0) ∧ decode 0x8017#16 = .ok (.subn 0 1) ∧ decode 0x810E#16 = .ok (.shl 1 0) ∧
    decode 0x8008#16 = .error (.class8 8#4) := by decide
theorem test_decode_index_and_draw : decode 0xABCD#16 = .ok (.ldI 0xBCD#12) ∧
    decode 0xD7A3#16 = .ok (.drw 7 10 3#4) := by decide
theorem test_decode_classE : decode 0xE59E#16 = .ok (.skp 5) ∧ decode 0xE5A1#16 = .ok (.sknp 5) ∧
    decode 0xE09F#16 = .error (.classE 0x9F#8) := by decide
theorem test_decode_classF_timers : decode 0xF307#16 = .ok (.ldVxDT 3) ∧ decode 0xF10A#16 = .ok (.ldVxK 1) ∧
    decode 0xF315#16 = .ok (.ldDTVx 3) ∧ decode 0xF318#16 = .ok (.ldSTVx 3) := by decide
theorem test_decode_classF_memory : decode 0xF21E#16 = .ok (.addI 2) ∧ decode 0xF429#16 = .ok (.ldF 4) ∧
    decode 0xF333#16 = .ok (.ldB 3) ∧ decode 0xF155#16 = .ok (.storeRegs 1) ∧ decode 0xF165#16 = .ok (.loadRegs 1) ∧
    decode 0xF000#16 = .error (.classF 0x00#8) := by decide
/-- W10. -/
theorem test_fields : fields 0xD7A3#16 =
    { c := 0xD#4, x := 7, y := 10, n := 3#4, nn := 0xA3#8, nnn := 0x7A3#12 } := by decide
theorem test_encode_canonical : encode .cls = 0x00E0#16 ∧ encode .ret = 0x00EE#16 ∧ encode (.seReg 4 5) = 0x5450#16 ∧
    encode (.drw 13 7 15#4) = 0xDD7F#16 ∧ encode (.loadRegs 15) = 0xFF65#16 := by decide
theorem test_decodeBytes_truncated : decodeBytes [0x6A#8] = .error .truncated := by decide
theorem test_asm : asmText (.drw 0 10 5#4) = "DRW V0, VA, 0x5" ∧ asmText (.storeRegs 1) = "LD [I], V1" := by decide

/-! ## Control transfer (section 2.2) -/

theorem test_ret_empty : run { State.reset with pc := 0x240 } 0x00EE (fun t =>
    faultIs t .stackUnderflow 0x240 (some 0x00EE) (.sp 0) && t.pc == 0x240) = true := by decide
theorem test_ret : run { State.reset with sp := 3, stack := State.reset.stack.set 2 0x456 } 0x0FFE (fun t =>
    t.sp == 2 && t.pc == 0x458) = true := by decide
theorem test_jp : run State.reset 0x1201 (fun t => t.pc == 0x201 && t.mode == .running) = true := by decide
theorem test_call : run { State.reset with pc := 0x240, sp := 15 } 0x2300 (fun t =>
    t.stack[15] == 0x240 && t.sp == 16 && t.pc == 0x300) = true := by decide
theorem test_call_full : run { State.reset with pc := 0x240, sp := 16 } 0x2300 (fun t =>
    faultIs t .stackOverflow 0x240 (some 0x2300) (.sp 16) && t.sp == 16 && t.pc == 0x240) = true := by decide
theorem test_se_byte : run (regs [(4, 1)]) 0x3401 (fun t => t.pc == 0x204) = true ∧
    run (regs [(4, 1)]) 0x3400 (fun t => t.pc == 0x202) = true := by decide
theorem test_sne_byte : run (regs [(4, 1)]) 0x4400 (fun t => t.pc == 0x204) = true ∧
    run (regs [(4, 1)]) 0x4401 (fun t => t.pc == 0x202) = true := by decide
theorem test_se_reg : run (regs [(4, 9), (5, 9)]) 0x5450 (fun t => t.pc == 0x204) = true ∧
    run (regs [(4, 9)]) 0x5450 (fun t => t.pc == 0x202) = true := by decide
theorem test_sne_reg : run (regs [(4, 9)]) 0x9450 (fun t => t.pc == 0x204) = true ∧
    run (regs [(4, 9)]) 0x9440 (fun t => t.pc == 0x202) = true := by decide
theorem test_jp_v0 : run (regs [(0, 0xFF)]) 0xBFFF (fun t => t.pc == 0x10FE && t.mode == .running) = true := by decide

/-! ## ALU (section 2.3) -/

theorem test_ld_byte : run State.reset 0x6A2B (fun t => t.getV 10 == 0x2B && t.pc == 0x202) = true := by decide
/-- W2. -/
theorem test_add_byte_no_flag : run (regs [(0, 0xFF), (15, 0x5A)]) 0x7001 (fun t =>
    t.getV 0 == 0 && t.getV 15 == 0x5A) = true := by decide
theorem test_ld_reg : run (regs [(2, 0x9C), (15, 0x33)]) 0x8120 (fun t =>
    t.getV 1 == 0x9C && t.getV 15 == 0x33) = true := by decide
theorem test_or : run (regs [(1, 0x0F), (2, 0xF0), (15, 0x33)]) 0x8121 (fun t =>
    t.getV 1 == 0xFF && t.getV 15 == 0x33) = true := by decide
theorem test_and : run (regs [(1, 0x3C), (2, 0x0F), (15, 0x33)]) 0x8122 (fun t =>
    t.getV 1 == 0x0C && t.getV 15 == 0x33) = true := by decide
theorem test_xor : run (regs [(1, 0xAA), (2, 0xFF), (15, 0x33)]) 0x8123 (fun t =>
    t.getV 1 == 0x55 && t.getV 15 == 0x33) = true := by decide
/-- W5. -/
theorem test_add_carry : run (regs [(0, 0xF0), (1, 0x1F)]) 0x8014 (fun t =>
    t.getV 0 == 0x0F && t.getV 15 == 1) = true := by decide
theorem test_add_vf : run (regs [(15, 0x10), (1, 0xF5)]) 0x8F14 (fun t => t.getV 15 == 1) = true := by decide
/-- W6. -/
theorem test_sub : run (regs [(0, 0xE0), (1, 0xF0)]) 0x8015 (fun t =>
    t.getV 0 == 0xF0 && t.getV 15 == 0) = true := by decide
theorem test_sub_equal : run (regs [(1, 5), (2, 5)]) 0x8125 (fun t =>
    t.getV 1 == 0 && t.getV 15 == 1) = true := by decide
theorem test_shr : run (regs [(1, 0x05), (15, 0x80)]) 0x8106 (fun t =>
    t.getV 1 == 2 && t.getV 15 == 1) = true := by decide
theorem test_shr_vf : run (regs [(15, 3)]) 0x8F06 (fun t => t.getV 15 == 0) = true := by decide
theorem test_subn : run (regs [(1, 0x10), (2, 0x30)]) 0x8127 (fun t =>
    t.getV 1 == 0x20 && t.getV 15 == 1) = true := by decide
theorem test_subn_vf : run (regs [(15, 0x05), (1, 0x03)]) 0x8F17 (fun t => t.getV 15 == 0) = true := by decide
theorem test_shl : run (regs [(1, 0x81)]) 0x810E (fun t => t.getV 1 == 2 && t.getV 15 == 1) = true := by decide
theorem test_shl_vf : run (regs [(15, 0x81)]) 0x8F0E (fun t => t.getV 15 == 2) = true := by decide
/-- SHIFT_SRC = Y (section 2.3): the operation with the other value of the parameter. -/
theorem test_shift_source_y :
    ((regs [(2, 0x03)]).shiftInto (shiftSource .y 1 2) 1 shrFlag shrByte).getV 1 = 1 ∧
    ((regs [(2, 0xC1)]).shiftInto (shiftSource .y 1 2) 1 shlFlag shlByte).getV 1 = 0x82 := by decide
/-- r = 0xA7 (R171), supplied by the host's Cycle event. -/
theorem test_rnd : gives (step { State.reset.withFetchWord 16 0xC30F with inputs := [.cycle 0xA7] }) (fun t =>
    t.getV 3 == 0x07 && t.inputs == [] && t.rand == none) = true := by decide

/-! ## Index and memory (section 2.4) -/

theorem test_ld_i : run State.reset 0xAFFF (fun t => t.I == 0xFFF) = true := by decide
theorem test_add_i : run { regs [(1, 1), (15, 7)] with I := 0xFFF } 0xF11E (fun t =>
    t.I == 0x1000 && t.getV 15 == 7) = true := by decide
theorem test_add_i_over : run { regs [(1, 1)] with I := 0xFFFF } 0xF11E (fun t =>
    faultIs t .addressRangeError 0x200 (some 0xF11E) (.address 0x10000) && t.I == 0xFFFF) = true := by decide
theorem test_ld_f : run (regs [(1, 0xFF)]) 0xF129 (fun t => t.I == 0x4FB) = true := by decide
/-- W8. -/
theorem test_ld_b : run { regs [(3, 245)] with I := 0x300 } 0xF333 (fun t =>
    t.mem.readList 0x300 3 == [2, 4, 5] && t.I == 0x300) = true := by decide
theorem test_ld_b_out_of_range : run { regs [(1, 9)] with I := 0xFFE } 0xF133 (fun t =>
    faultIs t .addressRangeError 0x200 (some 0xF133) (.address 0x1000) && t.mem.read 0xFFF == 0) = true := by decide
theorem test_store_regs : run { regs [(0, 1), (1, 2)] with I := 0x300 } 0xF155 (fun t =>
    t.mem.readList 0x300 3 == [1, 2, 0] && t.I == 0x302) = true := by decide
theorem test_store_regs_top : run { regs [(15, 0x0F)] with I := 0xFF0 } 0xFF55 (fun t =>
    t.mem.read 0xFFF == 0x0F && t.I == 0x1000) = true := by decide
/-- The bytes of glyph 0. -/
theorem test_load_regs : run (regs [(5, 9)]) 0xF465 (fun t =>
    t.V.toList.take 6 == [0xF0, 0x90, 0x90, 0x90, 0xF0, 9] && t.I == 5) = true := by decide
theorem test_load_regs_out_of_range : run { State.reset with I := 0xFF1 } 0xFF65 (fun t =>
    faultIs t .addressRangeError 0x200 (some 0xFF65) (.address 0x1000)) = true := by decide

/-! ## Display (section 2.5) -/

/-- The reset state with one byte at 0x300, and I there. -/
def sprite (b : Byte) : State := { State.reset.storeBytes 0x300 [b] with I := 0x300 }

theorem test_cls : run { State.reset with disp := Display.flip State.reset.disp 3 2 } 0x00E0 (fun t =>
    !t.disp.get 3 2 && t.redraw) = true := by decide
/-- 0x81 at column 60: wrap puts its last bit at column 3. -/
theorem test_drw_wraps : run ((sprite 0x81).setV 0 60) 0xD011 (fun t =>
    t.disp.get 60 0 && t.disp.get 3 0 && !t.disp.get 61 0 && t.getV 15 == 0 && t.redraw) = true := by decide
theorem test_drw_collides : run { (sprite 0x10).setV 1 2 with disp := Display.flip State.reset.disp 3 2 } 0xD011 (fun t =>
    !t.disp.get 3 2 && t.getV 15 == 1) = true := by decide
/-- EDGE_MODE = clip (section 2.5): the operation with the other value of the parameter. -/
theorem test_drw_clip : ((((sprite 0xFF).setV 0 60).drawn .clip 0 1 1).disp.get 63 0,
    (((sprite 0xFF).setV 0 60).drawn .clip 0 1 1).disp.get 0 0) = (true, false) := by decide

/-! ## Timers, keys, the wait (section 2.6) -/

/-- One step that delivers one host event. -/
def event (s : State) (e : HostEvent) (p : State → Bool) : Bool := gives (step { s with inputs := [e] }) p

theorem test_tick : event { State.reset with DT := 1, ST := 2 } .tick (fun t =>
    t.DT == 0 && t.ST == 1 && t.soundActive) = true := by decide
theorem test_cue : State.cue { State.reset with ST := 1 } .tick = true ∧
    State.cue { State.reset with ST := 2 } .tick = false := by decide
theorem test_ld_dt : run (regs [(3, 0x3C)]) 0xF315 (fun t => t.DT == 0x3C && t.ST == 0) = true := by decide
theorem test_ld_vx_dt : run { State.reset with DT := 0x3C } 0xF307 (fun t => t.getV 3 == 0x3C) = true := by decide
theorem test_ld_st : run (regs [(3, 5)]) 0xF318 (fun t => t.ST == 5 && t.DT == 0 && t.soundActive) = true := by decide
theorem test_skp : run { regs [(2, 15)] with pc := 0x300, keys := 0x8000 } 0xE29E (fun t => t.pc == 0x304) = true := by
  decide
theorem test_skp_range : run (regs [(2, 0x10)]) 0xE29E (fun t =>
    faultIs t .keyRangeError 0x200 (some 0xE29E) (.key 0x10) && t.pc == 0x200) = true := by decide
theorem test_sknp : run { regs [(2, 15)] with pc := 0x300, keys := 0x8000 } 0xE2A1 (fun t => t.pc == 0x302) = true ∧
    run { State.reset with pc := 0x300 } 0xE2A1 (fun t => t.pc == 0x304) = true := by decide
theorem test_ld_vx_k : run { State.reset with pc := 0x300 } 0xF30A (fun t =>
    t.mode == .waitingForKey 3 && t.pc == 0x300) = true := by decide
theorem test_wait_completes : event { State.reset with pc := 0x210, mode := .waitingForKey 2 } (.keys 0x0080) (fun t =>
    t.getV 2 == 7 && t.pc == 0x212 && t.mode == .running && t.keys == 0x0080) = true := by decide
theorem test_held_key_does_not_complete : event { State.reset with mode := .waitingForKey 3, keys := 0x0010 }
    (.keys 0x0010) (fun t => t.mode == .waitingForKey 3 && t.keys == 0x0010 && t.pc == 0x200) = true := by decide
theorem test_clear_redraw : event { State.reset with redraw := true } .clearRedraw (fun t => !t.redraw) = true := by decide

/-! ## Fetch (section 2.1), construction -/

/-- W9. -/
theorem test_fetch_big_endian : (State.reset.storeBytes 0x200 [0xAB, 0xCD]).currentWord = 0xABCD := by decide
theorem test_fetch_odd : gives (step { State.reset with pc := 0x201 }) (fun t =>
    faultIs t .pcInvariantError 0x201 none .none) = true := by decide
theorem test_fetch_above : gives (step { State.reset with pc := 0x1001 }) (fun t =>
    faultIs t .addressRangeError 0x1001 none (.address 0x1001)) = true := by decide
theorem test_fetch_lax : fetchCheck false 0x1FE = none ∧ fetchCheck true 0x1FE = some (.pcInvariantError, .none) ∧
    fetchCheck false 0xFFF = some (.addressRangeError, .address 0x1000) := by decide
theorem test_decode_error : run State.reset 0x8008 (fun t =>
    faultIs t .decodeError 0x200 (some 0x8008) .none) = true := by decide
/-- The empty image: its first fetch reads 0x0000, which executes as CLS (70_reset_and_hazards.md R342, R344). -/
theorem test_empty_image_runs_cls : gives (step State.reset) (fun t => t.redraw && t.pc == 0x202) = true := by decide
theorem test_construct : gives (construct [0x22, 0x00]) (fun t => t.mem.readList 0x1FF 4 == [0, 0x22, 0, 0]) = true := by
  decide
theorem test_error_codes : (ErrorKind.decodeError.code, ErrorKind.addressRangeError.code, ErrorKind.unwrittenRead.code) =
    (1, 4, 8) := by decide

/-! ## Witnesses: states and operands that meet the hypotheses of the statements, clause by clause, at boundary values -/

/-- The reset state with the word `w` at pc. -/
def atPc (w : Nat) : State := State.reset.withFetchWord 16 w

/-- A state that has faulted: RET on the empty stack. -/
def fallen : State :=
  { State.reset with mode := .faulted { kind := .stackUnderflow, pc := 0x200, word := some 0x00EE, info := .sp 0 } }

/-- What every statement about a Cycle asks of a state. -/
abbrev Runs (s : State) : Prop := s.inputs = [] ∧ s.mode = .running ∧ PcFetchable s.pc

theorem witness_ExactlyTheIgnoredBitsAreIgnored : decode 0x0120#16 = .ok .cls ∧ decode 0x8126#16 = .ok (.shr 1 2) ∧
    (∃ r, decode 0x0123#16 = .error r) := ⟨rfl, rfl, _, rfl⟩
/-- The next event is a Cycle when none is listed, and when one is, with any events after it. -/
theorem witness_CycleNext : State.reset.CycleNext [] ∧ { State.reset with inputs := [.cycle 0xA7] }.CycleNext [] ∧
    { State.reset with inputs := [.cycle 0, .tick] }.CycleNext [.tick] :=
  ⟨.inl ⟨rfl, rfl⟩, .inr ⟨0xA7, rfl⟩, .inr ⟨0, rfl⟩⟩
/-- The same errors of a listed Cycle: the event is off the list, and no byte is left at hand. -/
theorem witness_listed_cycle_errors :
    gives (step { State.reset with pc := 0xFFD, inputs := [.cycle 0xA7] }) (fun t =>
      faultIs t .pcInvariantError 0xFFD none .none && t.inputs == [] && t.rand == none) = true ∧
    gives (step { atPc 0xF066 with inputs := [.cycle 0xA7, .tick] }) (fun t =>
      faultIs t .decodeError 0x200 (some 0xF066) .none && t.inputs == [.tick] && t.rand == none) = true := by decide
theorem witness_IllegalWordsAreThoseListedAndRaiseDecodeError :
    Runs (atPc 0xF066) ∧ ∃ r, decode (atPc 0xF066).fetchedWord = .error r := ⟨by decide, .classF 0x66#8, by decide⟩
theorem witness_StepRunsTheDecodedInstruction : (Runs (atPc 0xC30F) ∧ decode (atPc 0xC30F).fetchedWord = .ok (.rnd 3 0x0F)) ∧
    { atPc 0xC30F with inputs := [.cycle 0xA7] }.inputs = [.cycle 0xA7] := by decide
theorem witness_StepRunsTheDecodedInstruction_top : { State.reset with pc := 0xFFE }.mode = .running ∧
    PcFetchable 0xFFE ∧ ¬ PcFetchable 0xFFF ∧ ¬ PcFetchable 0x1FE ∧
    decode { State.reset with pc := 0xFFE }.fetchedWord = .ok .cls := by decide
theorem witness_FetchCheckErrors_above :
    gives (step { State.reset with pc := 0xFFF }) (faultIs · .addressRangeError 0xFFF none (.address 0x1000)) = true ∧
    gives (step { State.reset with pc := 0xFFE }) (·.mode == .running) = true := by decide
theorem witness_FetchCheckErrors_invariant :
    gives (step { State.reset with pc := 0xFFD }) (faultIs · .pcInvariantError 0xFFD none .none) = true ∧
    gives (step { State.reset with pc := 0x1FE }) (faultIs · .pcInvariantError 0x1FE none .none) = true := by decide
theorem witness_EveryCycleWritesPcOnce : Runs (atPc 0xF10A) ∧ decode (atPc 0xF10A).fetchedWord = .ok (.ldVxK 1) ∧
    (∃ t, step (atPc 0xF10A) = .next t ∧ t.isFaulted = false) ∧ Runs (atPc 0x3101) ∧
    decode (atPc 0x3101).fetchedWord = .ok (.seByte 1 1) ∧ ∃ t, step (atPc 0x3101) = .next t ∧ t.isFaulted = false :=
  ⟨by decide, by decide, ⟨_, rfl, by decide⟩, by decide, by decide, _, rfl, by decide⟩
theorem witness_EveryCycleWritesPcOnce_listed : { atPc 0x3101 with inputs := [.cycle 1] }.CycleNext [] ∧
    ∃ t, step { atPc 0x3101 with inputs := [.cycle 1] } = .next t ∧ t.isFaulted = false :=
  ⟨.inr ⟨1, rfl⟩, _, rfl, by decide⟩
theorem witness_PlacedWordIsRunNext : decode 0xFF65#16 = .ok (.loadRegs 15) := rfl

/-- LD [I],V1 at 0xFFC, whose registers hold the word of JP 0x234. -/
def selfModifying : State :=
  { State.withFetchWord { regs [(0, 0x12), (1, 0x34)] with pc := 0xFFC } 16 0xF155 with I := 0xFFE }

theorem witness_StoredInstructionIsExecutedNext : Runs selfModifying ∧ selfModifying.pc.toNat ≤ 0xFFC ∧
    selfModifying.fetchedWord = 0xF155#16 ∧ selfModifying.I = selfModifying.pc + 2 ∧
    decode (selfModifying.getV 0 ++ selfModifying.getV 1) = .ok (.jp 0x234) := by decide
theorem witness_RetPopsOrUnderflows : State.reset.sp.val = 0 ∧ { State.reset with sp := 1 }.sp.val = (0 : Fin 16).val + 1 ∧
    { State.reset with sp := 16 }.sp.val = (15 : Fin 16).val + 1 ∧
    { State.reset with sp := 16, stack := Vector.replicate 16 0xFFE }.stack[15].toNat ≤ 0xFFE := by decide
theorem witness_JumpSetsPc_loop : Runs (atPc 0x1200) ∧ (atPc 0x1200).pc.toNat = (0x200#12).toNat ∧
    (atPc 0x1200).fetchedWord = 0x1#4 ++ 0x200#12 := by decide
theorem witness_JumpSetsPc_targets : ((0x201#12).toNat % 2 = 1 ∧ (0x201#12).toNat ≠ 0xFFF) ∧
    ((0x1FE#12).toNat < 0x200 ∧ (0x1FE#12).toNat ≠ 0xFFF) ∧ (0xFFF#12).toNat = 0xFFF ∧
    State.reset.inputs = [] ∧ State.reset.mode = .running := by decide
theorem witness_CallPushesItsOwnAddress : { State.reset with sp := 16 }.sp.val = 16 ∧
    { State.reset with sp := 15 }.sp.val = (15 : Fin 16).val ∧ State.reset.sp.val = (0 : Fin 16).val := by decide
theorem witness_RetAfterCallResumesAfterTheCall : { State.reset with sp := 15 }.sp.val < 16 := by decide
theorem witness_AddSetsCarry : ((regs [(0, 0xFF)]).getV 0).toNat + ((regs [(1, 0)]).getV 1).toNat = 255 ∧
    gives (exec (.addReg 0 1) (regs [(0, 0xFF)])) (fun t => t.getV 0 == 0xFF && t.getV VF == 0) = true ∧
    gives (exec (.addReg 0 1) (regs [(0, 0xFF), (1, 1)])) (fun t => t.getV 0 == 0 && t.getV VF == 1) = true := by decide
theorem witness_SubtractionsSetNotBorrow :
    gives (exec (.subReg 0 1) (regs [(1, 1)])) (fun t => t.getV 0 == 0xFF && t.getV VF == 0) = true ∧
    gives (exec (.subn 0 1) (regs [(1, 1)])) (fun t => t.getV 0 == 1 && t.getV VF == 1) = true := by decide
theorem witness_ShiftsWriteTheFlagFirst :
    gives (exec (.shl 1 0) (regs [(1, 0x80)])) (fun t => t.getV 1 == 0 && t.getV VF == 1) = true ∧
    gives (exec (.shl 15 0) (regs [(15, 0x7F)])) (fun t => t.getV VF == 0) = true := by decide
theorem witness_RandomByteIsMasked : { State.reset with rand := some 0xA7 }.rand = some 0xA7 ∧
    State.reset.rand = none := by decide
theorem witness_AddToIndexIsExactOrFaults :
    { regs [(1, 1)] with I := 0xFFFE }.I.toNat + ({ regs [(1, 1)] with I := 0xFFFE }.getV 1).toNat = 0xFFFF ∧
    { regs [(1, 1)] with I := 0xFFFF }.I.toNat + ({ regs [(1, 1)] with I := 0xFFFF }.getV 1).toNat = 0x10000 := by decide
theorem witness_DecimalDigitsStored : { State.reset with I := 0xFFD }.I.toNat + 2 = 4095 ∧
    gives (exec (.ldB 1) { regs [(1, 255)] with I := 0xFFD }) (fun t => t.mem.readList 0xFFD 3 == [2, 5, 5]) = true := by
  decide
theorem witness_RegisterBlockStored : { State.reset with I := 0xFF0 }.I.toNat + (15 : Reg).val = 4095 ∧
    { State.reset with I := 0xFFF }.I.toNat + (0 : Reg).val = 4095 := by decide
theorem witness_RegisterBlockLoaded : { State.reset with I := 0xFF0 }.I.toNat + (15 : Reg).val < 4096 ∧
    (0 : Reg) ≤ 0 ∧ (0 : Reg) < 1 := by decide
theorem witness_LoadAfterStoreRestoresRegisters : { State.reset with I := 0xFFE }.I.toNat + (1 : Reg).val < 4096 ∧
    ∃ t, exec (.storeRegs 1) { State.reset with I := 0xFFE } = .next t := ⟨by decide, _, rfl⟩
theorem witness_BlocksOutOfRangeFaultBeforeAnyWrite : 4096 ≤ { State.reset with I := 0xFFE }.I.toNat + 2 ∧
    4096 ≤ { State.reset with I := 0xFF1 }.I.toNat + (15 : Reg).val ∧ 0 < (1#4).toNat ∧
    4096 ≤ { State.reset with I := 0x1000 }.I.toNat + (1#4).toNat - 1 ∧
    4096 ≤ { State.reset with I := 0xFF2 }.I.toNat + (15#4).toNat - 1 := by decide

/-- A state whose sprite covers pixel (3, 31) by wrapping: its one byte is 0x01, drawn at column 60. -/
def covering : State := ((sprite 0x01).setV 0 60).setV 1 31

theorem witness_DrwXorsTheSprite : ((0#4).toNat = 0) ∧ { State.reset with I := 0xFF1 }.I.toNat + (15#4).toNat - 1 = 4095 ∧
    covering.I.toNat + (1#4).toNat - 1 < 4096 := by decide
theorem witness_DrwXorsTheSprite_covered : spriteCovers covering 0 1 (1#4).toNat 3 31 :=
  ⟨0, by decide, 7, by decide, by decide, by decide, by decide⟩
theorem witness_DrwXorsTheSprite_collision : spriteCovers { covering with disp := covering.disp.flip 3 31 } 0 1 1 3 31 ∧
    { covering with disp := covering.disp.flip 3 31 }.disp.get 3 31 = true :=
  ⟨⟨0, by decide, 7, by decide, by decide, by decide, by decide⟩, by decide⟩
theorem witness_DrwXorsTheSprite_uncovered : ¬ spriteCovers covering 0 1 (1#4).toNat 2 31 := by
  unfold spriteCovers; decide
theorem witness_DrawingTwiceRestoresTheDisplay : (0 : Reg) ≠ VF ∧ (1 : Reg) ≠ VF ∧
    covering.I.toNat + (1#4).toNat - 1 < 4096 ∧ (∃ c r, spriteCovers covering 0 1 (1#4).toNat c r) ∧
    ∀ c r, covering.disp.get c r = false :=
  ⟨by decide, by decide, by decide, ⟨3, 31, witness_DrwXorsTheSprite_covered⟩, Display.get_blank⟩
theorem witness_EdgeModesAgreeOnScreen : 56 + 8 ≤ 64 ∧ 17 + (List.replicate 15 (0xFF#8)).length ≤ 32 := by decide
theorem witness_TimerTransfers : (regs [(3, 1)]).mode = .running ∧ (regs [(3, 1)]).getV 3 = 1 := by decide
theorem witness_SkipsOnKeys : ((regs [(2, 15)]).getV 2).toNat = (15 : Key).val ∧
    15 < ((regs [(2, 16)]).getV 2).toNat := by decide

/-- A core that waits for a key into V2, key 4 held. -/
def waiting : State := { State.reset with mode := .waitingForKey 2, keys := 0x0010 }

theorem witness_CycleWhileWaitingChangesNothing : waiting.mode = .waitingForKey 2 ∧ waiting.inputs = [] ∧
    ∃ t, waiting.deliver (.keys 0x0018) = .next t ∧ t.mode ≠ waiting.mode := ⟨rfl, rfl, _, rfl, by decide⟩
theorem witness_KeysEventCompletesAWait_running : { State.reset with inputs := [.keys 0x8000] }.mode = .running := rfl
theorem witness_KeysEventCompletesAWait_held :
    ∀ k : Key, ¬ (waiting.keys.getLsbD k.val = false ∧ (0x0010#16).getLsbD k.val = true) := by decide
theorem witness_KeysEventCompletesAWait_several : { waiting with inputs := [.keys 0x8011] }.mode = .waitingForKey 2 ∧
    (waiting.keys.getLsbD (0 : Key).val = false ∧ (0x8011#16).getLsbD (0 : Key).val = true) ∧
    (waiting.keys.getLsbD (15 : Key).val = false ∧ (0x8011#16).getLsbD (15 : Key).val = true) := by decide
theorem witness_TickDecrementsBothTimers : { State.reset with inputs := [.tick], DT := 255 }.isFaulted = false ∧
    { waiting with inputs := [.tick], ST := 0 }.isFaulted = false := by decide
theorem witness_ClearRedrawInEveryMode : { fallen with inputs := [.clearRedraw], redraw := true }.inputs =
    [.clearRedraw] := rfl
theorem witness_ErrorsArePrecise : fallen.mode ≠ .running ∧ (atPc 0x00EE).mode = .running ∧
    ∃ t rec, exec .ret (atPc 0x00EE) = .next t ∧ t.mode = .faulted rec := ⟨by decide, rfl, _, _, rfl, rfl⟩
theorem witness_FaultedIsFinal : ∃ rec, fallen.mode = .faulted rec ∧ fallen.inputs = [] ∧
    ∃ t, step fallen = .next t := ⟨_, rfl, rfl, _, rfl⟩
theorem witness_FaultedIsFinal_listed :
    event { fallen with redraw := true } .clearRedraw (fun t => !t.redraw && t.mode == fallen.mode) = true ∧
    event { fallen with DT := 5 } .tick (fun t => t.DT == 5 && t.inputs == []) = true := by decide
theorem witness_AFaultedRunStaysFaulted : ∃ rec, { fallen with inputs := [.tick, .keys 1] }.mode = .faulted rec := ⟨_, rfl⟩
theorem witness_EveryStepKeepsTheInvariant : State.reset.Inv ∧ (∃ t, step State.reset = .next t) ∧ fallen.Inv ∧
    waiting.Inv := ⟨by decide, ⟨_, rfl⟩, by decide, by decide⟩
theorem witness_OnlyStoresWriteMemory : (∃ t, exec (.storeRegs 1) { State.reset with I := 0x300 } = .next t) ∧
    ¬ storesTo (.storeRegs 1) { State.reset with I := 0x300 } 0x302 ∧
    ¬ storesTo (.storeRegs 1) { State.reset with I := 0x300 } 0x2FF ∧ ¬ storesTo .cls State.reset 0x300 :=
  ⟨⟨_, rfl⟩, by simp [storesTo], by simp [storesTo], fun h => h⟩
theorem witness_OnlyDestinationsAndFlagsChange : (∃ t, exec (.loadRegs 1) State.reset = .next t) ∧
    ¬ writesReg (.loadRegs 1) 2 ∧ ¬ writesReg (.addReg 1 2) 2 ∧ ¬ writesReg (.orReg 1 2) VF := by
  refine ⟨⟨_, rfl⟩, ?_, ?_, ?_⟩ <;> simp [writesReg] <;> decide
theorem witness_OnlyClsAndDrwChangeTheDisplay : (∃ t, exec .ret { State.reset with redraw := true } = .next t) ∧
    Instr.ret ≠ .cls ∧ ∀ x y n, Instr.ret ≠ .drw x y n := ⟨⟨_, rfl⟩, by decide, by simp⟩
theorem witness_WritersOfStackTimersAndIndex : (∃ t, exec (.jp 0x300) State.reset = .next t) ∧
    (∀ a, Instr.jp 0x300 ≠ .call a) ∧ Instr.jp 0x300 ≠ .ret ∧ (∀ x, Instr.jp 0x300 ≠ .ldDTVx x) ∧
    (∀ x, Instr.jp 0x300 ≠ .addI x) ∧ ∀ x nn, Instr.jp 0x300 ≠ .rnd x nn :=
  ⟨⟨_, rfl⟩, by simp, by decide, by simp, by simp, by simp⟩
theorem witness_UnreadStateDoesNotInfluence : State.reset.sp.val ≤ (0 : Fin 16).val ∧
    { State.reset with sp := 15 }.sp.val ≤ (15 : Fin 16).val ∧ (∀ x nn, Instr.ret ≠ .rnd x nn) ∧
    (∀ x, Instr.ret ≠ .skp x) ∧ (∀ x, Instr.ret ≠ .ldSTVx x) ∧ ∀ n, Instr.ret ≠ .call n :=
  ⟨by decide, by decide, by simp, by simp, by simp, by simp⟩
theorem witness_CanonicalMemoriesThatReadAlikeAreEqual : Memory.wf [(0x300, 1), (0xFFF, 2)] ∧
    ¬ Memory.wf [(0x300, 0)] ∧ ¬ Memory.wf [(0xFFF, 1), (0x300, 1)] := by decide
theorem witness_ConstructionLoadsTheImage : (List.replicate 3584 (0xFF#8)).length ≤ 3584 ∧
    3584 < (List.replicate 3585 (0xFF#8)).length := by
  exact ⟨by rw [List.length_replicate], by rw [List.length_replicate]; omega⟩

end Sys2Proof.Tests
end

section
/-! What a step may do, said once: the equations of RET and CALL, the outcome of every instruction, and the Cycle that
runs it. The proofs about the execution cycle cite these and unfold no handler. -/

namespace Sys2Proof.Machine

/-! ## RET and CALL (spec/41_control.md R140, R142) -/

theorem execRet_empty (s : State) (h : s.sp.val = 0) : execRet s = .next (s.raise .stackUnderflow (.sp 0)) := by
  simp [execRet, pop_empty s h]

theorem execRet_of_pos (s : State) (j : Fin 16) (h : s.sp.val = j.val + 1) :
    execRet s = .next { s with sp := j.castSucc, pc := s.stack[j.val] + 2 } := by
  simp only [execRet, pop_of_pos s j h, State.jump]

theorem execCall_full (nnn : Addr) (s : State) (h : s.sp.val = 16) :
    execCall nnn s = .next (s.raise .stackOverflow (.sp 16)) := by
  simp [execCall, push_full s s.pc h]

theorem execCall_of_lt (nnn : Addr) (s : State) (h : s.sp.val < 16) :
    execCall nnn s = .next
      { s with stack := s.stack.set s.sp.val s.pc, sp := ⟨s.sp.val + 1, by omega⟩, pc := addrWord nnn } := by
  simp only [execCall, push_of_lt s s.pc h, State.jump]

/-! ## The outcome of every instruction -/

/-- The state `t` that an instruction that raises nothing leaves from `s`: a part not named is as before, and a part
bound by `∃` holds a value this relation leaves open. -/
def Completes (i : Instr) (s t : State) : Prop :=
  match i with
  | .ret => ∃ j : Fin 16, s.sp.val = j.val + 1 ∧ t = { s with sp := j.castSucc, pc := s.stack[j.val] + 2 }
  | .call nnn => ∃ h : s.sp.val < 16,
      t = { s with stack := s.stack.set s.sp.val s.pc, sp := ⟨s.sp.val + 1, by omega⟩, pc := addrWord nnn }
  | .jp nnn => t = s.jump (addrWord nnn)
  | .jpV0 nnn => t = s.jump (addrWord nnn + (s.getV 0).setWidth 16)
  | .seByte _ _ | .sneByte _ _ | .seReg _ _ | .sneReg _ _ | .skp _ | .sknp _ => ∃ taken, t = s.skipIf taken
  | .ldVxK x => t = { s with mode := .waitingForKey x }
  | .ldByte _ _ | .addByte _ _ | .ldReg _ _ | .orReg _ _ | .andReg _ _ | .xorReg _ _ | .addReg _ _ | .subReg _ _
  | .shr _ _ | .subn _ _ | .shl _ _ | .ldVxDT _ => ∃ V, t = { s with V := V }.advance
  | .rnd _ _ => ∃ V draws, t = { s with V := V, draws := draws }.advance
  | .ldDTVx x => t = { s with DT := s.getV x }.advance
  | .ldSTVx x => t = { s with ST := s.getV x }.advance
  | .cls => t = { s with disp := Display.blank, redraw := true }.advance
  | .drw _ _ _ => ∃ V disp, t = { s with V := V, disp := disp, redraw := true }.advance
  | .ldI _ | .addI _ | .ldF _ => ∃ I, t = { s with I := I }.advance
  | .ldB _ => ∃ mem, t = { s with mem := mem }.advance
  | .storeRegs _ => ∃ mem I, t = { s with mem := mem, I := I }.advance
  | .loadRegs _ => ∃ V I, t = { s with V := V, I := I }.advance

/-- An instruction ends in a fatal error, which changes nothing but the mode, or completes. -/
def RaisesOrCompletes (i : Instr) (s t : State) : Prop :=
  (∃ kind info, t = s.raise kind info) ∨ Completes i s t

/-- An instruction behind a range check raises, or goes on with a block in range. -/
theorem outcome_of_guardRange {i : Instr} {s u : State} {first count : Nat}
    (he : exec i s = .next (s.guardRange first count u))
    (hu : count = 0 ∨ first + count - 1 < 4096 → Completes i s u) :
    ∃ t, exec i s = .next t ∧ RaisesOrCompletes i s t := by
  refine ⟨_, he, ?_⟩
  by_cases h : count = 0 ∨ first + count - 1 < 4096
  · exact .inr ((guardRange_of_in_range s u h).symm ▸ hu h)
  · exact .inl ⟨_, _, guardRange_of_out_of_range s u (by omega) (by omega)⟩

/-- An instruction that ends with a write of I raises, or leaves some I. -/
theorem outcome_of_setI {i : Instr} {s : State} {v : Nat} (he : exec i s = .next (s.setI v State.advance))
    (hu : ∀ I, Completes i s { s with I := I }.advance) : ∃ t, exec i s = .next t ∧ RaisesOrCompletes i s t := by
  refine ⟨_, he, ?_⟩
  by_cases h : v ≤ 0xFFFF
  · exact .inr ((setI_of_le s State.advance h).symm ▸ hu _)
  · exact .inl ⟨_, _, setI_of_gt s State.advance (by omega)⟩

/-- A skip on a key raises, or skips or not. -/
theorem outcome_of_skipOnKey {i : Instr} {s : State} {x : Reg} {f : Bool → Bool}
    (he : exec i s = .next (s.skipOnKey x f)) (hu : ∀ taken, Completes i s (s.skipIf taken)) :
    ∃ t, exec i s = .next t ∧ RaisesOrCompletes i s t := by
  refine ⟨_, he, ?_⟩
  unfold State.skipOnKey
  split
  · exact .inl ⟨_, _, rfl⟩
  · exact .inr (hu _)

theorem ret_outcome (s : State) : ∃ t, exec .ret s = .next t ∧ RaisesOrCompletes .ret s t := by
  by_cases h : s.sp.val = 0
  · exact ⟨_, execRet_empty s h, .inl ⟨_, _, rfl⟩⟩
  · have hj : s.sp.val = (⟨s.sp.val - 1, by omega⟩ : Fin 16).val + 1 := by simp only; omega
    exact ⟨_, execRet_of_pos s _ hj, .inr ⟨_, hj, rfl⟩⟩

theorem call_outcome (nnn : Addr) (s : State) :
    ∃ t, exec (.call nnn) s = .next t ∧ RaisesOrCompletes (.call nnn) s t := by
  by_cases h : s.sp.val < 16
  · exact ⟨_, execCall_of_lt nnn s h, .inr ⟨h, rfl⟩⟩
  · exact ⟨_, execCall_full nnn s (by omega), .inl ⟨_, _, rfl⟩⟩

/-- Consuming the random byte changes at most the count of free values. -/
theorem afterRandom_eq (s : State) : s.afterRandom = { s with draws := s.afterRandom.draws } := by
  unfold State.afterRandom
  split <;> rfl

theorem rnd_outcome (x : Reg) (nn : Byte) (s : State) :
    ∃ t, exec (.rnd x nn) s = .next t ∧ RaisesOrCompletes (.rnd x nn) s t := by
  refine ⟨_, rfl, .inr ⟨s.V.set x.val (s.randomByte &&& nn) x.isLt, s.afterRandom.draws, ?_⟩⟩
  rw [afterRandom_eq s]
  rfl

/-- EVERY INSTRUCTION, in every state, answers a next state: the instruction has raised a fatal error or completed. -/
theorem exec_outcome (i : Instr) (s : State) : ∃ t, exec i s = .next t ∧ RaisesOrCompletes i s t :=
  match i with
  | .ret => ret_outcome s
  | .call nnn => call_outcome nnn s
  | .rnd x nn => rnd_outcome x nn s
  | .skp _ | .sknp _ => outcome_of_skipOnKey rfl fun _ => ⟨_, rfl⟩
  | .ldI _ | .addI _ | .ldF _ => outcome_of_setI rfl fun _ => ⟨_, rfl⟩
  | .drw _ _ _ => outcome_of_guardRange rfl fun _ => ⟨_, _, rfl⟩
  | .ldB _ => outcome_of_guardRange rfl fun _ => ⟨_, rfl⟩
  | .storeRegs _ | .loadRegs _ => outcome_of_guardRange rfl fun _ => ⟨_, _, setI_of_le _ _ (by omega)⟩
  | .jp _ | .jpV0 _ | .ldVxK _ | .ldDTVx _ | .ldSTVx _ | .cls => ⟨_, rfl, .inr rfl⟩
  | .seByte _ _ | .sneByte _ _ | .seReg _ _ | .sneReg _ _ | .ldByte _ _ | .addByte _ _ | .ldReg _ _ | .orReg _ _
  | .andReg _ _ | .xorReg _ _ | .addReg _ _ | .subReg _ _ | .shr _ _ | .subn _ _ | .shl _ _ | .ldVxDT _ =>
    ⟨_, rfl, .inr ⟨_, rfl⟩⟩

/-- What `exec` answered is an error or a completion. -/
theorem raisesOrCompletes_of_exec {i : Instr} {s t : State} (h : exec i s = .next t) : RaisesOrCompletes i s t := by
  obtain ⟨u, hu, ho⟩ := exec_outcome i s
  obtain rfl : u = t := Host.Outcome.next.inj (hu.symm.trans h)
  exact ho

/-! ## What a completed instruction leaves -/

/-- The pc is the one the instruction's own rule gives (spec/40_execution_cycle.md R123). -/
theorem Completes.nextPc_pc {i : Instr} {s t : State} (h : Completes i s t) : nextPc i s t.pc := by
  cases i
  case ret => obtain ⟨j, hj, rfl⟩ := h; exact ⟨j, hj, rfl⟩
  case call nnn => obtain ⟨_, rfl⟩ := h; exact toNat_addrWord nnn
  case jp nnn => obtain rfl := h; exact toNat_addrWord nnn
  case jpV0 nnn =>
    obtain rfl := h
    have := nnn.isLt
    have := (s.getV 0).isLt
    simp only [nextPc, State.jump_pc, BitVec.toNat_add, toNat_addrWord, BitVec.toNat_setWidth]
    omega
  case seByte | sneByte | seReg | sneReg | skp | sknp =>
    obtain ⟨taken, rfl⟩ := h
    cases taken
    · exact .inl rfl
    · exact .inr rfl
  case ldVxK | ldDTVx | ldSTVx | cls => obtain rfl := h; rfl
  case rnd | drw | storeRegs | loadRegs => obtain ⟨_, _, rfl⟩ := h; rfl
  all_goals obtain ⟨_, rfl⟩ := h; rfl

/-- Only LD Vx,K changes the mode (spec/45_timers_input.md R233). -/
theorem Completes.mode_eq {i : Instr} {s t : State} (h : Completes i s t) (hi : ∀ x, i ≠ .ldVxK x) :
    t.mode = s.mode := by
  cases i
  case ldVxK x => exact absurd rfl (hi x)
  case jp | jpV0 | ldDTVx | ldSTVx | cls => obtain rfl := h; rfl
  case ret | rnd | drw | storeRegs | loadRegs => obtain ⟨_, _, rfl⟩ := h; rfl
  all_goals obtain ⟨_, rfl⟩ := h; rfl

/-! ## The Cycle that runs an instruction (spec/40_execution_cycle.md R121) -/

theorem currentWord_eq_fetchedWord (s : State) : s.currentWord = s.fetchedWord := currentWord_eq s

/-- In mode Running at a fetchable pc, a cycle is exec of the instruction the word there decodes to. -/
theorem cycle_eq_exec {s : State} {i : Instr} (hm : s.mode = .running) (hp : PcFetchable s.pc)
    (hd : decode s.fetchedWord = .ok i) : s.cycle = exec i s :=
  cycle_of_decode hm ((fetchCheck_eq_none _).2 hp) (currentWord_eq_fetchedWord s ▸ hd)

/-- The same of a listed `Cycle(r)`, taken off the list: r is at hand for that cycle only. -/
theorem deliver_cycle_eq_exec {s : State} {i : Instr} (r : Byte) (rest : List HostEvent) (hm : s.mode = .running)
    (hp : PcFetchable s.pc) (hd : decode s.fetchedWord = .ok i) :
    { s with inputs := rest }.deliver (.cycle r) =
      mapNext (fun t => { t with rand := s.rand }) (exec i { s with inputs := rest, rand := some r }) :=
  congrArg (mapNext _) (cycle_eq_exec (s := { s with inputs := rest, rand := some r }) hm hp hd)

/-- A step whose next event is a Cycle, listed or not, leaves what `exec` leaves from a state that differs from `s` only
in the events to come and the byte at hand; then the byte at hand may change once more. -/
theorem exec_of_step_cycle {s t : State} {rest : List HostEvent} {i : Instr} (hc : s.CycleNext rest)
    (hm : s.mode = .running) (hp : PcFetchable s.pc) (hd : decode s.fetchedWord = .ok i) (hs : step s = .next t) :
    ∃ r r' u, exec i { s with inputs := rest, rand := r } = .next u ∧ t = { u with rand := r' } := by
  obtain ⟨hi, rfl, hstep⟩ | ⟨r, hstep⟩ := step_of_cycleNext hc
  · rw [hstep, cycle_eq_exec hm hp hd] at hs
    exact ⟨s.rand, t.rand, t, hi ▸ hs, rfl⟩
  · obtain ⟨u, hu, -⟩ := exec_outcome i { s with inputs := rest, rand := some r }
    rw [hstep, deliver_cycle_eq_exec r rest hm hp hd, hu] at hs
    exact ⟨some r, s.rand, u, hu, (Host.Outcome.next.inj hs).symm⟩

/-- The pc rule of an instruction reads neither the events to come nor the byte at hand. -/
theorem nextPc_with_inputs_rand (i : Instr) (s : State) (inputs : List HostEvent) (rand : Option Byte) (p : Word) :
    nextPc i { s with inputs := inputs, rand := rand } p = nextPc i s p := by
  cases i <;> rfl

/-! ## A Cycle in a wait (spec/40_execution_cycle.md R125) -/

theorem cycle_of_waiting {x : Reg} {s : State} (hm : s.mode = .waitingForKey x) : s.cycle = .next s := by
  simp [State.cycle, hm]

/-- A delivered Cycle leaves the very same state: the byte at hand is put away again. -/
theorem deliver_cycle_of_waiting {x : Reg} {s : State} (hm : s.mode = .waitingForKey x) (r : Byte) :
    s.deliver (.cycle r) = .next s :=
  congrArg (mapNext fun t => { t with rand := s.rand }) (cycle_of_waiting (s := { s with rand := some r }) hm)

theorem tick_mode (s : State) : s.tick.mode = s.mode := by
  unfold State.tick
  split <;> rfl

/-! ## A word put at the fetch point -/

theorem tableWord_toNat (w : Word) : tableWord 16 w.toNat = w := by
  rw [tableWord, Nat.mod_eq_of_lt w.isLt, BitVec.ofNat_toNat, BitVec.setWidth_eq]

/-- The pc of a placed word can be fetched at. -/
theorem placeWord_pc_fetchable (s : State) (w : Word) : PcFetchable (s.placeWord w).pc := by
  by_cases h : fetchable s.pc = true
  · simp only [State.placeWord, if_pos h]
    exact (fetchCheck_eq_none _).1 (Option.isNone_iff_eq_none.1 h)
  · simp only [State.placeWord, if_neg h]
    decide

theorem placeWord_mem (s : State) (w : Word) :
    (s.placeWord w).mem = s.mem.writeList (s.placeWord w).pc.toNat [hiByte w, loByte w] := rfl

/-- A placed word is the one fetched. -/
theorem placeWord_fetchedWord (s : State) (w : Word) : (s.placeWord w).fetchedWord = w := by
  rw [← currentWord_eq_fetchedWord]
  simp [State.currentWord, Memory.word, placeWord_mem, Memory.read_writeList]

/-- No byte but the two at the fetch point changes. -/
theorem placeWord_read (s : State) (w : Word) {a : Nat} (h0 : a ≠ (s.placeWord w).pc.toNat)
    (h1 : a ≠ (s.placeWord w).pc.toNat + 1) : (s.placeWord w).mem.read a = s.mem.read a := by
  rw [placeWord_mem, Memory.read_writeList]
  split
  · rw [List.getElem?_eq_none (by simp only [List.length_cons, List.length_nil]; omega), Option.getD_none]
  · rfl

end Sys2Proof.Machine
end

section
/-! The statements about the execution cycle (spec/40_execution_cycle.md). -/

namespace Sys2Proof.Machine

/-- Settles O7: a Cycle that does not fault has completed its instruction, and `Completes` fixes the pc and the mode. -/
theorem everyCycleWritesPcOnce : Obligations.EveryCycleWritesPcOnce := by
  intro s t rest i hc hm hp hd hs hf
  obtain ⟨r, r', u, hu, rfl⟩ := exec_of_step_cycle hc hm hp hd hs
  obtain ⟨_, _, rfl⟩ | hcomp := raisesOrCompletes_of_exec hu
  · simp [State.isFaulted] at hf
  · refine ⟨nextPc_with_inputs_rand i s rest r u.pc ▸ hcomp.nextPc_pc, ?_, fun hi => (hcomp.mode_eq hi).trans hm⟩
    rintro x rfl
    exact congrArg State.mode hcomp

/-- Settles O9: the placed word is the one fetched, at a pc that passes the fetch check, in mode Running. -/
theorem placedWordIsRunNext : Obligations.PlacedWordIsRunNext := by
  intro s w i hd
  have hw : s.withFetchWord 16 w.toNat = s.placeWord w := congrArg s.placeWord (tableWord_toNat w)
  rw [hw]
  refine ⟨cycle_eq_exec rfl (placeWord_pc_fetchable s w) ?_, fun a => placeWord_read s w⟩
  rwa [placeWord_fetchedWord]

/-- Settles O53: an error keeps all these parts, and `Completes` names the parts each instruction may write. -/
theorem writersOfStackTimersAndIndex : Obligations.WritersOfStackTimersAndIndex := by
  intro i s t h
  obtain ⟨_, _, rfl⟩ | hc := raisesOrCompletes_of_exec h
  · simp
  · cases i
    case call =>
      obtain ⟨hsp, rfl⟩ := hc
      have hstack (j : Fin 16) (hj : j.val ≠ s.sp.val) : (s.stack.set s.sp.val s.pc)[j.val] = s.stack[j.val] :=
        Vector.getElem_set_ne hsp j.isLt hj.symm
      simpa using hstack
    case ret => obtain ⟨_, _, rfl⟩ := hc; simp
    case jp | jpV0 | ldVxK | ldDTVx | ldSTVx | cls => obtain rfl := hc; simp
    case rnd | drw | storeRegs | loadRegs => obtain ⟨_, _, rfl⟩ := hc; simp
    all_goals obtain ⟨_, rfl⟩ := hc; simp

/-- Settles O5: a cycle is exec of the decoded instruction, and exec answers a next state for the listed Cycle too. -/
theorem stepRunsTheDecodedInstruction : Obligations.StepRunsTheDecodedInstruction := by
  refine ⟨fun s i hi hm hp hd => ?_, fun s i r rest hi hm hp hd => ?_⟩
  · rw [step, hi]
    exact cycle_eq_exec hm hp hd
  · obtain ⟨t, ht, -⟩ := exec_outcome i { s with inputs := rest, rand := some r }
    refine ⟨t, ht, ?_⟩
    rw [step, hi]
    exact (deliver_cycle_eq_exec r rest hm hp hd).trans (congrArg (mapNext _) ht)

/-- Settles O39: by the event; a Cycle leaves the same state, a Tick and a ClearRedraw the same mode. -/
theorem cycleWhileWaitingChangesNothing : Obligations.CycleWhileWaitingChangesNothing := by
  intro x s hm
  refine ⟨deliver_cycle_of_waiting hm, fun hi => ?_, fun e t ht hne => ?_⟩
  · rw [step, hi]
    exact cycle_of_waiting hm
  · cases e with
    | keys v => exact ⟨v, rfl⟩
    | cycle r =>
      obtain rfl : s = t := Host.Outcome.next.inj ((deliver_cycle_of_waiting hm r).symm.trans ht)
      exact absurd rfl hne
    | tick =>
      obtain rfl : s.tick = t := Host.Outcome.next.inj ht
      exact absurd (tick_mode s) hne
    | clearRedraw =>
      obtain rfl : s.clearRedraw = t := Host.Outcome.next.inj ht
      exact absurd rfl hne

end Sys2Proof.Machine
end

section
/-! What the statements about control transfer rest on: the words of its instructions, a raised error as the record it
leaves, the two errors of the fetch check, and a skip by its condition. -/

namespace Sys2Proof.Machine

/-! ## The words of the control instructions (spec/30_encoding.md R94, R95)

A word of class 0x0 is dispatched on its low nibble, whatever its bits 11 to 4 hold (decision D2). -/

theorem fields_class0_c (h : Byte) (n : Nibble) : (fields ((0x0#4 ++ h) ++ n)).c = 0x0#4 := by
  refine BitVec.eq_of_getLsbD_eq fun i hi => ?_
  have hbit : ((0x0#4 ++ h) ++ n).getLsbD (12 + i) = false := by
    rw [BitVec.getLsbD_append, if_neg (by omega), BitVec.getLsbD_append, if_neg (by omega), BitVec.getLsbD_zero]
  simp [fields, hbit]

theorem fields_class0_n (h : Byte) (n : Nibble) : (fields ((0x0#4 ++ h) ++ n)).n = n :=
  BitVec.extractLsb'_append_eq_right

theorem decode_ret (h : Byte) : decode ((0x0#4 ++ h) ++ 0xE#4) = .ok .ret := by
  simp only [decode, dispatch, fields_class0_c, dispatch0, fields_class0_n]

theorem decode_jp (nnn : Addr) : decode (encNNN 0x1#4 nnn) = .ok (.jp nnn) := by
  simp [decode, dispatch]

theorem decode_call (nnn : Addr) : decode (encNNN 0x2#4 nnn) = .ok (.call nnn) := by
  simp [decode, dispatch]

theorem decode_seByte (x : Reg) (nn : Byte) : decode (encXNN 0x3#4 x nn) = .ok (.seByte x nn) := by
  simp [decode, dispatch]

theorem decode_sneByte (x : Reg) (nn : Byte) : decode (encXNN 0x4#4 x nn) = .ok (.sneByte x nn) := by
  simp [decode, dispatch]

theorem decode_seReg (x y : Reg) (n : Nibble) : decode (encXYN 0x5#4 x y n) = .ok (.seReg x y) := by
  simp [decode, dispatch]

theorem decode_sneReg (x y : Reg) (n : Nibble) : decode (encXYN 0x9#4 x y n) = .ok (.sneReg x y) := by
  simp [decode, dispatch]

/-! ## Errors as records -/

/-- A handler's error holds the word at pc (spec/60_exceptions.md R300). -/
theorem raise_eq_faultedWith (s : State) (kind : ErrorKind) (info : FaultInfo) :
    s.raise kind info = s.faultedWith kind (some s.fetchedWord) info :=
  congrArg (fun w => s.takeError kind (some w) info) (currentWord_eq_fetchedWord s)

/-! The two errors of the fetch check (spec/40_execution_cycle.md R122): the range is checked first. -/

theorem fetchCheck_of_gt {pc : Nat} (h : 0xFFE < pc) :
    fetchCheck strictPc pc = some (.addressRangeError, .address (max pc 0x1000)) :=
  if_pos h

theorem fetchCheck_of_odd_or_low {pc : Nat} (hle : pc ≤ 0xFFE) (h : pc % 2 = 1 ∨ pc < 0x200) :
    fetchCheck strictPc pc = some (.pcInvariantError, .none) := by
  rw [fetchCheck, if_neg (Nat.not_lt.2 hle), if_pos (by simpa [strictPc] using h)]

/-! ## Returns, jumps and skips -/

theorem exec_ret (s : State) : exec .ret s = execRet s := rfl

theorem addrWord_eq_ofNat (nnn : Addr) : addrWord nnn = BitVec.ofNat 16 nnn.toNat :=
  (BitVec.ofNat_toNat 16 nnn).symm

/-- With no event listed a step is the host's Cycle (log entry 1). -/
theorem step_eq_cycle {s : State} (h : s.inputs = []) : step s = s.cycle := by
  rw [step, h]

/-- With no event listed, a fetch that fails its check faults and changes nothing else. -/
theorem step_of_fetchError {s : State} {kind : ErrorKind} {info : FaultInfo} (hi : s.inputs = [])
    (hm : s.mode = .running) (hp : fetchCheck strictPc s.pc.toNat = some (kind, info)) :
    step s = .next (s.faultedWith kind none info) :=
  (step_eq_cycle hi).trans (cycle_of_fetchError hm hp)

/-- A skip whose Boolean decides `p`. -/
theorem skipIf_eq_ite (s : State) {b : Bool} {p : Prop} [Decidable p] (h : b = true ↔ p) :
    s.skipIf b = { s with pc := s.pc + (if p then 4 else 2) } := by
  simp only [State.skipIf, h]

end Sys2Proof.Machine
end

section
/-! The statements about control transfer (spec/41_control.md). -/

namespace Sys2Proof.Machine

/-- Settles O14: the RET pops the very entry the CALL pushed, the CALL's own address. -/
theorem retAfterCallResumesAfterTheCall : Obligations.RetAfterCallResumesAfterTheCall := by
  intro nnn s h
  refine ⟨_, _, execCall_of_lt nnn s h, (exec_ret _).trans (execRet_of_pos _ ⟨s.sp.val, h⟩ rfl), ?_, fun j hj => ?_⟩
  · have hpop : (s.stack.set s.sp.val s.pc)[s.sp.val] = s.pc := Vector.getElem_set_self h
    simp only [hpop]
    rfl
  · exact Vector.getElem_set_ne h j.isLt hj.symm

/-- Settles O11: by the stack pointer; an entry of at most 0xFFE is too small for the sum to wrap. -/
theorem retPopsOrUnderflows : Obligations.RetPopsOrUnderflows := by
  refine ⟨decode_ret, fun s h => ?_, fun s j h => ⟨execRet_of_pos s j h, fun ha => ?_⟩⟩
  · exact (execRet_empty s h).trans (congrArg _ (raise_eq_faultedWith s _ _))
  · bv_omega

/-- Settles O12: a JP to its own address writes the pc that stands there, and a bad target fails the next fetch check. -/
theorem jumpSetsPc : Obligations.JumpSetsPc := by
  intro nnn s
  have hexec : exec (.jp nnn) s = .next (s.jump (BitVec.ofNat 16 nnn.toNat)) :=
    congrArg (fun a => Host.Outcome.next (s.jump a)) (addrWord_eq_ofNat nnn)
  have htarget : (BitVec.ofNat 16 nnn.toNat).toNat = nnn.toNat := addrWord_eq_ofNat nnn ▸ toNat_addrWord nnn
  refine ⟨decode_jp nnn, hexec, fun hi hm hp hpc hw => ?_, fun hi hm hbad hne => ?_, fun hi hm htop => ?_⟩
  · have hself : BitVec.ofNat 16 nnn.toNat = s.pc := BitVec.eq_of_toNat_eq (htarget.trans hpc.symm)
    rw [step_eq_cycle hi, cycle_eq_exec hm hp ((congrArg decode hw).trans (decode_jp nnn)), hexec, hself]
    rfl
  · have hle : nnn.toNat ≤ 0xFFE := by have := nnn.isLt; omega
    exact step_of_fetchError hi hm (htarget.symm ▸ fetchCheck_of_odd_or_low hle hbad)
  · exact step_of_fetchError hi hm ((congrArg _ (htarget.trans htop)).trans (fetchCheck_of_gt (by decide)))

/-- Settles O13: by whether the stack is full. -/
theorem callPushesItsOwnAddress : Obligations.CallPushesItsOwnAddress := by
  refine fun nnn s => ⟨decode_call nnn, fun h => ?_, fun j h => ?_⟩
  · exact (execCall_full nnn s h).trans (congrArg _ (raise_eq_faultedWith s _ _))
  · obtain ⟨j, hj⟩ := j
    obtain rfl : s.sp.val = j := h
    exact addrWord_eq_ofNat nnn ▸ execCall_of_lt nnn s _

/-- Settles O15: each handler is a skip on the Boolean that decides its condition. -/
theorem skipsOnRegisters : Obligations.SkipsOnRegisters := by
  intro x y nn h s
  exact ⟨decode_seByte x nn, decode_sneByte x nn, decode_seReg x y h, decode_sneReg x y h,
    congrArg _ (skipIf_eq_ite s beq_iff_eq), congrArg _ (skipIf_eq_ite s bne_iff_ne),
    congrArg _ (skipIf_eq_ite s beq_iff_eq), congrArg _ (skipIf_eq_ite s bne_iff_ne)⟩

end Sys2Proof.Machine
end

section
/-! What a result written to V[X] is: the value there, every other register as before (spec/42_alu.md). -/

namespace Sys2Proof.Machine

variable (s : State)

/-- Only the register file and the pc differ, and the pc by the default advance (R160 to R165). -/
theorem State.setResult_eq (x : Reg) (b : Byte) :
    s.setResult x b = { s with V := (s.setResult x b).V, pc := s.pc + 2 } := rfl

@[simp] theorem State.getV_setResult_self (x : Reg) (b : Byte) : (s.setResult x b).getV x = b :=
  s.getV_setV_self x b

@[simp] theorem State.getV_setResult_of_ne {x k : Reg} (b : Byte) (h : k ≠ x) :
    (s.setResult x b).getV k = s.getV k :=
  s.getV_setV_of_ne b h

theorem exec_ldByte (x : Reg) (nn : Byte) : exec (.ldByte x nn) s = .next (s.setResult x nn) := rfl

theorem exec_ldReg (x y : Reg) : exec (.ldReg x y) s = .next (s.setResult x (s.getV y)) := rfl

theorem exec_addByte (x : Reg) (nn : Byte) :
    exec (.addByte x nn) s = .next (s.setResult x (sumByte (s.getV x) nn)) := rfl

end Sys2Proof.Machine
end

section
/-! The statements about register loads and the ALU (spec/42_alu.md). -/

namespace Sys2Proof.Machine

/-- Settles O17: both loads write their result to V[X], the byte itself or the old V[Y]. -/
theorem loadsOfRegisters : Obligations.LoadsOfRegisters := by
  intro x y nn s
  constructor
  · exact ⟨_, exec_ldByte s x nn, s.setResult_eq x nn, s.getV_setResult_self x nn,
      fun _ => s.getV_setResult_of_ne nn⟩
  · exact ⟨_, exec_ldReg s x y, s.setResult_eq x (s.getV y), s.getV_setResult_self x (s.getV y),
      fun _ => s.getV_setResult_of_ne (s.getV y)⟩

/-- Settles O18: the result written to V[X] is the byte sum, whose value is the sum modulo 256, and no flag is written. -/
theorem addImmediateWrapsWithoutFlag : Obligations.AddImmediateWrapsWithoutFlag := by
  intro x nn s
  refine ⟨_, exec_addByte s x nn, s.setResult_eq x _, ?_, fun _ => s.getV_setResult_of_ne _⟩
  rw [State.getV_setResult_self, toNat_sumByte]

end Sys2Proof.Machine
end

section
/-! The block transfers in range, as equations of exec, and the bytes and registers they leave (spec/43_index_memory.md
R194, R195). -/

namespace Sys2Proof.Machine

/-- What LD [I],Vx leaves when its block is in range: by `exec_storeRegs_of_in_range`. -/
def State.storedRegs (s : State) (x : Reg) : State :=
  { s with
    mem := s.mem.writeList s.I.toNat (s.lowRegs x)
    I := BitVec.ofNat 16 (s.I.toNat + x.val + 1) }.advance

/-- What LD Vx,[I] leaves when its block is in range: by `exec_loadRegs_of_in_range`. -/
def State.loadedRegs (s : State) (x : Reg) : State :=
  { s with
    V := loadInto s.mem s.I.toNat (x.val + 1) s.V
    I := BitVec.ofNat 16 (s.I.toNat + x.val + 1) }.advance

/-- Neither the range check nor SetI raises: I stays far below 0xFFFF. -/
theorem exec_storeRegs_of_in_range {x : Reg} {s : State} (h : s.I.toNat + x.val < 4096) :
    exec (.storeRegs x) s = .next (s.storedRegs x) :=
  congrArg Host.Outcome.next
    ((guardRange_of_in_range s _ (.inr h)).trans (setI_of_le _ State.advance (by omega)))

theorem exec_loadRegs_of_in_range {x : Reg} {s : State} (h : s.I.toNat + x.val < 4096) :
    exec (.loadRegs x) s = .next (s.loadedRegs x) :=
  congrArg Host.Outcome.next
    ((guardRange_of_in_range s _ (.inr h)).trans (setI_of_le _ State.advance (by omega)))

/-- Byte k of the stored block is V[k]. -/
theorem read_storedRegs (s : State) {x k : Reg} (h : k ≤ x) :
    (s.storedRegs x).mem.read (s.I.toNat + k.val) = s.getV k := by
  have hk : k.val ≤ x.val := h
  refine (Memory.read_writeList (s.lowRegs x) s.mem _ _).trans ?_
  rw [if_pos (Nat.le_add_right _ k.val), Nat.add_sub_cancel_left, getElem?_lowRegs, dif_pos hk]
  rfl

/-- Byte k of the loaded block is in V[k]. -/
theorem getV_loadedRegs (s : State) {x k : Reg} (h : k ≤ x) :
    (s.loadedRegs x).getV k = s.mem.read (s.I.toNat + k.val) :=
  (getElem_loadInto s.mem s.I.toNat (x.val + 1) s.V k.val k.isLt).trans (if_pos (Nat.lt_succ_of_le h))

/-! ## A store to the next pc (spec/20_memory.md R74) -/

theorem decode_storeRegs (x : Reg) : decode (encXNN 0xF#4 x 0x55#8) = .ok (.storeRegs x) := by
  simp [decode, dispatch, dispatchF]

/-- The fetched word is the two bytes at pc, the first one high (spec/20_memory.md R61). -/
theorem fetchedWord_eq_append (s : State) : s.fetchedWord = s.mem.read s.pc.toNat ++ s.mem.read (s.pc.toNat + 1) :=
  (currentWord_eq_fetchedWord s).symm

/-- Where I is the next pc, the word fetched after a store of V0 and V1 is these two. -/
theorem fetchedWord_storedRegs {s : State} (h : s.I = s.pc + 2) {x : Reg} (hx : 1 ≤ x) :
    (s.storedRegs x).fetchedWord = s.getV 0 ++ s.getV 1 := by
  have hpc : (s.storedRegs x).pc = s.I := h.symm
  have h0 := read_storedRegs s (Fin.zero_le x)
  have h1 := read_storedRegs s hx
  rw [fetchedWord_eq_append, hpc, ← h0, ← h1]
  rfl

end Sys2Proof.Machine
end

section
/-! The statements about the index register and memory transfers (spec/43_index_memory.md), and the one about
self-modifying code (spec/20_memory.md R74). -/

namespace Sys2Proof.Machine

/-- Settles O10: both steps are cycles at a fetchable pc, and the second one fetches the block the first one stored. -/
theorem storedInstructionIsExecutedNext : Obligations.StoredInstructionIsExecutedNext := by
  intro s i hi hm hp hpc hw hI hd
  have hnext : (s.pc + 2).toNat = s.pc.toNat + 2 := by bv_omega
  have haddr : s.I.toNat = s.pc.toNat + 2 := (congrArg BitVec.toNat hI).trans hnext
  have hrange : s.I.toNat + (1 : Reg).val < 4096 := by
    simp only [Fin.val_one]
    omega
  have hfetchable : PcFetchable (s.pc + 2) := by
    obtain ⟨hlow, -, heven⟩ := hp
    rw [PcFetchable, hnext]
    omega
  have hstore : decode s.fetchedWord = .ok (.storeRegs 1) := (congrArg decode hw).trans (decode_storeRegs 1)
  have hstored : decode (s.storedRegs 1).fetchedWord = .ok i :=
    (congrArg decode (fetchedWord_storedRegs hI (Fin.le_refl 1))).trans hd
  have hfirst : step s = .next (s.storedRegs 1) :=
    (step_eq_cycle hi).trans ((cycle_eq_exec hm hp hstore).trans (exec_storeRegs_of_in_range hrange))
  have hsecond : step (s.storedRegs 1) = exec i (s.storedRegs 1) :=
    (step_eq_cycle (s := s.storedRegs 1) hi).trans (cycle_eq_exec hm hfetchable hstored)
  have hread {k : Reg} (hk : k ≤ 1) : (s.storedRegs 1).mem.read (s.pc.toNat + 2 + k.val) = s.getV k :=
    haddr ▸ read_storedRegs s hk
  exact ⟨_, hfirst, rfl, hread (Fin.zero_le 1), hread (Fin.le_refl 1), hsecond⟩

/-- Settles O30: the load puts into V[k] byte k of the stored block, which is the old V[k]. -/
theorem loadAfterStoreRestoresRegisters : Obligations.LoadAfterStoreRestoresRegisters := by
  intro x s t W h ht
  obtain rfl : s.storedRegs x = t := Host.Outcome.next.inj ((exec_storeRegs_of_in_range h).symm.trans ht)
  exact ⟨_, exec_loadRegs_of_in_range h, fun k hk => (getV_loadedRegs _ hk).trans (read_storedRegs s hk)⟩

/-- Settles O24: NNN has twelve bits, so SetI does not raise. -/
theorem loadIndex : Obligations.LoadIndex := by
  intro nnn s
  have hle : nnn.toNat ≤ 0xFFFF := by have := nnn.isLt; omega
  exact congrArg Host.Outcome.next (setI_of_le s State.advance hle)

end Sys2Proof.Machine
end

section
/-! The statement about the display (spec/44_display.md). -/

namespace Sys2Proof.Machine

/-- R210; redraw is set whatever the display held before (decision D30). -/
theorem exec_cls (s : State) : exec .cls s = .next { s with disp := Display.blank, redraw := true }.advance := rfl

/-- Settles O32: CLS leaves the blank display, whose every pixel is 0. -/
theorem clsClearsEveryPixel : Obligations.ClsClearsEveryPixel :=
  fun s => ⟨_, exec_cls s, rfl, Display.get_blank⟩

end Sys2Proof.Machine
end

section
/-! What the statements about the timers rest on: the words and the equations of the three transfers, and when the sound
and the cue are on (spec/45_timers_input.md R232, R234, R235; spec/60_exceptions.md R311, R312). -/

namespace Sys2Proof.Machine

theorem decode_ldVxDT (x : Reg) : decode (encXNN 0xF#4 x 0x07#8) = .ok (.ldVxDT x) := by
  simp [decode, dispatch, dispatchF]

theorem decode_ldDTVx (x : Reg) : decode (encXNN 0xF#4 x 0x15#8) = .ok (.ldDTVx x) := by
  simp [decode, dispatch, dispatchF]

theorem decode_ldSTVx (x : Reg) : decode (encXNN 0xF#4 x 0x18#8) = .ok (.ldSTVx x) := by
  simp [decode, dispatch, dispatchF]

variable (s : State)

theorem exec_ldVxDT (x : Reg) : exec (.ldVxDT x) s = .next (s.setResult x s.DT) := rfl

theorem exec_ldDTVx (x : Reg) : exec (.ldDTVx x) s = .next { s with DT := s.getV x }.advance := rfl

theorem exec_ldSTVx (x : Reg) : exec (.ldSTVx x) s = .next { s with ST := s.getV x }.advance := rfl

theorem soundActive_iff : s.soundActive = true ↔ s.ST ≠ 0 := bne_iff_ne

/-- A Tick emits the cue where ST is 1, in any mode but Faulted (decision D19). -/
theorem cue_tick_iff : s.cue .tick = true ↔ s.isFaulted = false ∧ s.ST = 1 := by
  unfold State.cue State.isFaulted
  cases s.mode with
  | faulted _ => simp
  | running | waitingForKey _ => simp

theorem isFaulted_of_running {s : State} (h : s.mode = .running) : s.isFaulted = false := by
  simp [State.isFaulted, h]

end Sys2Proof.Machine
end

section
/-! The statement about the timer transfers (spec/45_timers_input.md R232, R234, R235). -/

namespace Sys2Proof.Machine

/-- Settles O36: each transfer is an equation of exec, and ST holds V[X] after the last one, so V[X] decides the sound and
the cue. -/
theorem timerTransfers : Obligations.TimerTransfers := by
  intro x s
  refine ⟨decode_ldVxDT x, decode_ldDTVx x, decode_ldSTVx x, ?_, exec_ldDTVx s x, ?_⟩
  · exact ⟨_, exec_ldVxDT s x, s.setResult_eq x s.DT, s.getV_setResult_self x s.DT,
      fun _ => s.getV_setResult_of_ne s.DT⟩
  · exact ⟨_, exec_ldSTVx s x, rfl, soundActive_iff _, fun hm hx => (cue_tick_iff _).2 ⟨isFaulted_of_running hm, hx⟩⟩

end Sys2Proof.Machine
end

section
/-! The statement about the output `sound_active` (spec/60_exceptions.md R311). -/

namespace Sys2Proof.Machine

/-- The output a host reads is the sound bit of the state (R311). -/
theorem outputs_soundActive (s : State) : s.outputs.soundActive = s.soundActive := rfl

/-- Settles O42: the output is the state's sound bit, on where ST is not the zero word, which is where its value is not 0. -/
theorem soundIsActiveExactlyWhenTimerIsNonzero : Obligations.SoundIsActiveExactlyWhenTimerIsNonzero := by
  intro s
  calc s.outputs.soundActive = true
    _ ↔ s.soundActive = true := by rw [outputs_soundActive]
    _ ↔ s.ST ≠ 0 := soundActive_iff s
    _ ↔ s.ST.toNat ≠ 0 := BitVec.toNat_ne

end Sys2Proof.Machine
end

section
/-! Decode and encode, as inverse to each other but for the ignored bits (spec/30_encoding.md R99, R103): every encoded word
decodes to its instruction, a word is its four fields, and a word that decodes to an instruction is its encoded word in
every bit that instruction does not ignore. -/

namespace Sys2Proof

/-! ## Encoded words decode -/

theorem decode_cls (h : Byte) : decode ((0x0#4 ++ h) ++ 0x0#4) = .ok .cls := by
  simp only [decode, dispatch, Machine.fields_class0_c, dispatch0, Machine.fields_class0_n]

/-- By the dispatch table that holds the instruction (R94 to R98). -/
theorem decode_encode (i : Instr) : decode (encode i) = .ok i := by
  cases i
  case cls => exact decode_cls 0x0E#8
  case ret => exact Machine.decode_ret 0x0E#8
  case ldReg | orReg | andReg | xorReg | addReg | subReg | shr | subn | shl => simp [encode, decode, dispatch, dispatch8]
  case skp | sknp => simp [encode, decode, dispatch, dispatchE]
  case ldVxDT | ldVxK | ldDTVx | ldSTVx | addI | ldF | ldB | storeRegs | loadRegs =>
    simp [encode, decode, dispatch, dispatchF]
  all_goals simp [encode, decode, dispatch]

/-! ## A word is its class and the rest of its fields -/

theorem encNNN_fields {w : Word} {c : Nibble} (hc : (fields w).c = c) : encNNN c (fields w).nnn = w := by
  subst hc
  exact (BitVec.extractLsb'_append_extractLsb'_eq_extractLsb' rfl).trans BitVec.extractLsb'_eq_self

theorem encXNN_fields {w : Word} {c : Nibble} (hc : (fields w).c = c) : encXNN c (fields w).x (fields w).nn = w := by
  subst hc
  have hcx : (fields w).c ++ regBits (fields w).x = w.extractLsb' 8 8 :=
    BitVec.extractLsb'_append_extractLsb'_eq_extractLsb' rfl
  rw [encXNN, hcx]
  exact (BitVec.extractLsb'_append_extractLsb'_eq_extractLsb' rfl).trans BitVec.extractLsb'_eq_self

theorem encXYN_fields {w : Word} {c : Nibble} (hc : (fields w).c = c) :
    encXYN c (fields w).x (fields w).y (fields w).n = w := by
  have hyn : regBits (fields w).y ++ (fields w).n = (fields w).nn :=
    BitVec.extractLsb'_append_extractLsb'_eq_extractLsb' rfl
  rw [encXYN, hyn]
  exact encXNN_fields hc

theorem regBits_inj {x y : Reg} : regBits x = regBits y ↔ x = y :=
  ⟨congrArg BitVec.toFin, congrArg regBits⟩

theorem word_eq_iff {u v : Word} : u = v ↔ (fields u).c = (fields v).c ∧ regBits (fields u).x = regBits (fields v).x ∧
    regBits (fields u).y = regBits (fields v).y ∧ (fields u).n = (fields v).n := by
  refine ⟨fun h => h ▸ ⟨rfl, rfl, rfl, rfl⟩, fun ⟨hc, hx, hy, hn⟩ => ?_⟩
  rw [← encXYN_fields hc, regBits_inj.1 hx, regBits_inj.1 hy, hn, encXYN_fields rfl]

/-! ## Words that agree outside ignored bits -/

theorem fields_and_c (u v : Word) : (fields (u &&& v)).c = (fields u).c &&& (fields v).c := BitVec.extractLsb'_and
theorem fields_and_x (u v : Word) : regBits (fields (u &&& v)).x = regBits (fields u).x &&& regBits (fields v).x :=
  BitVec.extractLsb'_and
theorem fields_and_y (u v : Word) : regBits (fields (u &&& v)).y = regBits (fields u).y &&& regBits (fields v).y :=
  BitVec.extractLsb'_and
theorem fields_and_n (u v : Word) : (fields (u &&& v)).n = (fields u).n &&& (fields v).n := BitVec.extractLsb'_and

/-- Two masked words are equal when their fields, masked by the mask's fields, are. -/
theorem and_eq_and_iff {u v g : Word} : u &&& g = v &&& g ↔
    (fields u).c &&& (fields g).c = (fields v).c &&& (fields g).c ∧
    regBits (fields u).x &&& regBits (fields g).x = regBits (fields v).x &&& regBits (fields g).x ∧
    regBits (fields u).y &&& regBits (fields g).y = regBits (fields v).y &&& regBits (fields g).y ∧
    (fields u).n &&& (fields g).n = (fields v).n &&& (fields g).n := by
  simp only [word_eq_iff, fields_and_c, fields_and_x, fields_and_y, fields_and_n]

theorem nibble_and_F (v : Nibble) : v &&& 0xF#4 = v := BitVec.and_allOnes

@[simp] theorem regBits_zero : regBits 0 = 0x0#4 := rfl
@[simp] theorem regBits_fifteen : regBits 15 = 0xF#4 := rfl

/-- CLS and RET ignore bits 11 to 4, the fields X and Y (decision D2). -/
theorem and_not_0FF0_eq_iff {u v : Word} : u &&& ~~~ 0x0FF0#16 = v &&& ~~~ 0x0FF0#16 ↔
    (fields u).c = (fields v).c ∧ (fields u).n = (fields v).n := by
  rw [and_eq_and_iff, show fields (~~~ 0x0FF0#16) = ⟨0xF#4, 0, 0, 0xF#4, 0x0F#8, 0x00F#12⟩ from rfl]
  simp only [nibble_and_F, regBits_zero, BitVec.and_zero, true_and]

/-- SE Vx,Vy and SNE Vx,Vy ignore the field N (decision D26). -/
theorem and_not_000F_eq_iff {u v : Word} : u &&& ~~~ 0x000F#16 = v &&& ~~~ 0x000F#16 ↔
    (fields u).c = (fields v).c ∧ (fields u).x = (fields v).x ∧ (fields u).y = (fields v).y := by
  rw [and_eq_and_iff, show fields (~~~ 0x000F#16) = ⟨0xF#4, 15, 15, 0x0#4, 0xF0#8, 0xFF0#12⟩ from rfl]
  simp only [nibble_and_F, regBits_fifteen, regBits_inj, BitVec.and_zero, and_true]

/-- SHR and SHL ignore the field Y where SHIFT_SRC = X (decision D3). -/
theorem and_not_00F0_eq_iff {u v : Word} : u &&& ~~~ 0x00F0#16 = v &&& ~~~ 0x00F0#16 ↔
    (fields u).c = (fields v).c ∧ (fields u).x = (fields v).x ∧ (fields u).n = (fields v).n := by
  rw [and_eq_and_iff, show fields (~~~ 0x00F0#16) = ⟨0xF#4, 15, 0, 0xF#4, 0x0F#8, 0xF0F#12⟩ from rfl]
  simp only [nibble_and_F, regBits_fifteen, regBits_zero, regBits_inj, BitVec.and_zero, true_and]

/-- Flipping bits of a mask changes no other bit. -/
theorem flip_and_not (w m g : Word) : (w ^^^ (m &&& g)) &&& ~~~ g = w &&& ~~~ g := by
  ext i hi
  cases hg : g[i] <;> simp [hg]

end Sys2Proof
end

section
/-! Words that decode to an instruction, against its canonical word (spec/30_encoding.md R99, R103). -/

namespace Sys2Proof

/-! ## What each dispatch table answers (R94 to R98) -/

theorem encode_of_dispatch8 {f : Fields} {i : Instr} (h : dispatch8 f = .ok i) :
    encode i = encXYN 0x8#4 f.x f.y f.n := by
  unfold dispatch8 at h
  split at h
  case h_10 => cases h
  all_goals
    rename_i hn
    cases h
    rw [hn]
    rfl

theorem encode_of_dispatchE {f : Fields} {i : Instr} (h : dispatchE f = .ok i) :
    encode i = encXNN 0xE#4 f.x f.nn := by
  unfold dispatchE at h
  split at h
  case h_3 => cases h
  all_goals
    rename_i hnn
    cases h
    rw [hnn]
    rfl

theorem encode_of_dispatchF {f : Fields} {i : Instr} (h : dispatchF f = .ok i) :
    encode i = encXNN 0xF#4 f.x f.nn := by
  unfold dispatchF at h
  split at h
  case h_10 => cases h
  all_goals
    rename_i hnn
    cases h
    rw [hnn]
    rfl

theorem dispatch0_eq_ok {f : Fields} {i : Instr} (h : dispatch0 f = .ok i) :
    (i = .cls ∧ f.n = 0x0#4) ∨ (i = .ret ∧ f.n = 0xE#4) := by
  unfold dispatch0 at h
  split at h
  next hn => cases h; exact .inl ⟨rfl, hn⟩
  next hn => cases h; exact .inr ⟨rfl, hn⟩
  next => cases h

/-- The word `w` is the canonical word of `i`, or `i` is one of the four instructions with ignored bits that are no
operand, and `w` holds the fields that `i` fixes. -/
def CanonicalOrIgnoring (w : Word) (i : Instr) : Prop :=
  encode i = w ∨ (i = .cls ∧ (fields w).c = 0x0#4 ∧ (fields w).n = 0x0#4) ∨
  (i = .ret ∧ (fields w).c = 0x0#4 ∧ (fields w).n = 0xE#4) ∨
  (i = .seReg (fields w).x (fields w).y ∧ (fields w).c = 0x5#4) ∨
  (i = .sneReg (fields w).x (fields w).y ∧ (fields w).c = 0x9#4)

/-- By the class nibble: each of the 16 dispatch entries. -/
theorem canonicalOrIgnoring_of_decode {w : Word} {i : Instr} (h : decode w = .ok i) : CanonicalOrIgnoring w i := by
  unfold decode dispatch at h
  split at h
  next hc =>
    obtain ⟨hi, hn⟩ | ⟨hi, hn⟩ := dispatch0_eq_ok h
    · exact .inr (.inl ⟨hi, hc, hn⟩)
    · exact .inr (.inr (.inl ⟨hi, hc, hn⟩))
  next hc => cases h; exact .inl (encNNN_fields hc)
  next hc => cases h; exact .inl (encNNN_fields hc)
  next hc => cases h; exact .inl (encXNN_fields hc)
  next hc => cases h; exact .inl (encXNN_fields hc)
  next hc => cases h; exact .inr (.inr (.inr (.inl ⟨rfl, hc⟩)))
  next hc => cases h; exact .inl (encXNN_fields hc)
  next hc => cases h; exact .inl (encXNN_fields hc)
  next hc => exact .inl ((encode_of_dispatch8 h).trans (encXYN_fields hc))
  next hc => cases h; exact .inr (.inr (.inr (.inr ⟨rfl, hc⟩)))
  next hc => cases h; exact .inl (encNNN_fields hc)
  next hc => cases h; exact .inl (encNNN_fields hc)
  next hc => cases h; exact .inl (encXNN_fields hc)
  next hc => cases h; exact .inl (encXYN_fields hc)
  next hc => exact .inl ((encode_of_dispatchE h).trans (encXNN_fields hc))
  next =>
    have hc : (fields w).c = 0xF#4 := by
      generalize (fields w).c = c at *
      revert c
      decide
    exact .inl ((encode_of_dispatchF h).trans (encXNN_fields hc))

/-- A word that decodes to an instruction is its canonical word in every bit the instruction does not ignore. -/
theorem and_eq_and_of_decode {w : Word} {i : Instr} (h : decode w = .ok i) :
    w &&& ~~~ ignoredBits i = encode i &&& ~~~ ignoredBits i := by
  obtain rfl | ⟨rfl, hc, hn⟩ | ⟨rfl, hc, hn⟩ | ⟨rfl, hc⟩ | ⟨rfl, hc⟩ := canonicalOrIgnoring_of_decode h
  · rfl
  · exact and_not_0FF0_eq_iff.2 ⟨hc, hn⟩
  · exact and_not_0FF0_eq_iff.2 ⟨hc, hn⟩
  · exact and_not_000F_eq_iff.2 ⟨by simp [hc, encode], by simp [encode], by simp [encode]⟩
  · exact and_not_000F_eq_iff.2 ⟨by simp [hc, encode], by simp [encode], by simp [encode]⟩

theorem eq_encode_of_ignoredBits_eq_zero {w : Word} {i : Instr} (h0 : ignoredBits i = 0x0000#16)
    (h : w &&& ~~~ ignoredBits i = encode i &&& ~~~ ignoredBits i) : w = encode i := by
  rwa [h0, BitVec.not_zero, BitVec.and_allOnes, BitVec.and_allOnes] at h

/-- Conversely, such a word decodes to an instruction of the same effect: the same one, but for the operand Y of a shift,
which its effect does not read. -/
theorem decode_of_and_eq_and {w : Word} {i : Instr} (h : w &&& ~~~ ignoredBits i = encode i &&& ~~~ ignoredBits i) :
    ∃ j, decode w = .ok j ∧ ∀ s : Machine.State, Machine.exec j s = Machine.exec i s := by
  cases i
  case cls =>
    obtain ⟨hc, hn⟩ := and_not_0FF0_eq_iff.1 h
    exact ⟨.cls, by simp only [decode, dispatch, dispatch0, hc, hn]; rfl, fun _ => rfl⟩
  case ret =>
    obtain ⟨hc, hn⟩ := and_not_0FF0_eq_iff.1 h
    exact ⟨.ret, by simp only [decode, dispatch, dispatch0, hc, hn]; rfl, fun _ => rfl⟩
  case seReg x y =>
    obtain ⟨hc, hx, hy⟩ := and_not_000F_eq_iff.1 h
    exact ⟨.seReg x y, by simp [decode, dispatch, hc, hx, hy, encode], fun _ => rfl⟩
  case sneReg x y =>
    obtain ⟨hc, hx, hy⟩ := and_not_000F_eq_iff.1 h
    exact ⟨.sneReg x y, by simp [decode, dispatch, hc, hx, hy, encode], fun _ => rfl⟩
  case shr x y =>
    obtain ⟨hc, hx, hn⟩ := and_not_00F0_eq_iff.1 h
    exact ⟨.shr x (fields w).y, by simp [decode, dispatch, dispatch8, hc, hx, hn, encode], fun _ => rfl⟩
  case shl x y =>
    obtain ⟨hc, hx, hn⟩ := and_not_00F0_eq_iff.1 h
    exact ⟨.shl x (fields w).y, by simp [decode, dispatch, dispatch8, hc, hx, hn, encode], fun _ => rfl⟩
  all_goals
    obtain rfl := eq_encode_of_ignoredBits_eq_zero rfl h
    exact ⟨_, decode_encode _, fun _ => rfl⟩

end Sys2Proof
end

section
/-! The statements about decode and encode as inverse to each other (spec/30_encoding.md). -/

namespace Sys2Proof

/-- Settles O1: the two bytes make the encoded word again, and it decodes to its instruction. -/
theorem decodeOfEncodeIsTheInstruction : Obligations.DecodeOfEncodeIsTheInstruction := by
  intro i rest
  simp only [encodeBytes, List.cons_append, List.nil_append, decodeBytes, wordOfBytes_hiByte_loByte, decode_encode]

/-- Settles O2: agreement outside the ignored bits is what decoding to the instruction means, up to the effect, and flipping
ignored bits keeps it. -/
theorem exactlyTheIgnoredBitsAreIgnored : Obligations.ExactlyTheIgnoredBitsAreIgnored :=
  ⟨fun _ _ => and_eq_and_of_decode,
    fun w m i h => decode_of_and_eq_and ((flip_and_not w m (ignoredBits i)).trans (and_eq_and_of_decode h))⟩

/-- Settles O58: the rows that ignore bits by their own lemmas, every other row is the canonical word. -/
theorem everyEncodingOfTheTablesDecodes : Obligations.EveryEncodingOfTheTablesDecodes := by
  intro x y n nn nnn
  exact ⟨decode_cls nn, Machine.decode_ret nn, decode_encode (.jp nnn), decode_encode (.call nnn),
    decode_encode (.seByte x nn), decode_encode (.sneByte x nn), Machine.decode_seReg x y n,
    decode_encode (.ldByte x nn), decode_encode (.addByte x nn), decode_encode (.ldReg x y), decode_encode (.orReg x y),
    decode_encode (.andReg x y), decode_encode (.xorReg x y), decode_encode (.addReg x y), decode_encode (.subReg x y),
    decode_encode (.shr x y), decode_encode (.subn x y), decode_encode (.shl x y), Machine.decode_sneReg x y n,
    decode_encode (.ldI nnn), decode_encode (.jpV0 nnn), decode_encode (.rnd x nn), decode_encode (.drw x y n),
    decode_encode (.skp x), decode_encode (.sknp x), decode_encode (.ldVxDT x), decode_encode (.ldVxK x),
    decode_encode (.ldDTVx x), decode_encode (.ldSTVx x), decode_encode (.addI x), decode_encode (.ldF x),
    decode_encode (.ldB x), decode_encode (.storeRegs x), decode_encode (.loadRegs x)⟩

/-- Settles O4: the decoder evaluates on each word. -/
theorem sampleWordsDecode : Obligations.SampleWordsDecode :=
  ⟨rfl, rfl, rfl, rfl, rfl, rfl, rfl, rfl, rfl, rfl, rfl, rfl, rfl⟩

end Sys2Proof
end

section
/-! The words without an instruction (spec/30_encoding.md R100), table by table. -/

namespace Sys2Proof

theorem dispatch0_error_iff (f : Fields) : (∃ r, dispatch0 f = .error r) ↔
    f.n.toNat ≠ 0x0 ∧ f.n.toNat ≠ 0xE := by
  unfold dispatch0
  split
  next h => simp [h]
  next h => simp [h]
  next h1 h2 =>
    exact iff_of_true ⟨_, rfl⟩ ⟨fun h => h1 (BitVec.eq_of_toNat_eq h), fun h => h2 (BitVec.eq_of_toNat_eq h)⟩

theorem dispatchE_error_iff (f : Fields) : (∃ r, dispatchE f = .error r) ↔
    f.nn.toNat ≠ 0x9E ∧ f.nn.toNat ≠ 0xA1 := by
  unfold dispatchE
  split
  next h => simp [h]
  next h => simp [h]
  next h1 h2 =>
    exact iff_of_true ⟨_, rfl⟩ ⟨fun h => h1 (BitVec.eq_of_toNat_eq h), fun h => h2 (BitVec.eq_of_toNat_eq h)⟩

theorem dispatch8_error_iff (f : Fields) : (∃ r, dispatch8 f = .error r) ↔
    (0x8 ≤ f.n.toNat ∧ f.n.toNat ≤ 0xD) ∨ f.n.toNat = 0xF := by
  unfold dispatch8
  split
  case h_10 =>
    refine iff_of_true ⟨_, rfl⟩ ?_
    generalize f.n = n at *
    revert n
    decide
  all_goals
    rename_i h
    simp [h]

theorem dispatchF_error_iff (f : Fields) : (∃ r, dispatchF f = .error r) ↔
    f.nn.toNat ∉ [0x07, 0x0A, 0x15, 0x18, 0x1E, 0x29, 0x33, 0x55, 0x65] := by
  unfold dispatchF
  split
  case h_10 =>
    refine iff_of_true ⟨_, rfl⟩ ?_
    generalize f.nn = nn at *
    revert nn
    decide
  all_goals
    rename_i h
    simp [h]

/-- Only the four classes with a table of their own have illegal words. -/
theorem dispatch_error_iff (f : Fields) : (∃ r, dispatch f = .error r) ↔
    (f.c.toNat = 0x0 ∧ ∃ r, dispatch0 f = .error r) ∨ (f.c.toNat = 0x8 ∧ ∃ r, dispatch8 f = .error r) ∨
    (f.c.toNat = 0xE ∧ ∃ r, dispatchE f = .error r) ∨ (f.c.toNat = 0xF ∧ ∃ r, dispatchF f = .error r) := by
  unfold dispatch
  split
  case h_16 =>
    have hc : f.c = 0xF#4 := by
      generalize f.c = c at *
      revert c
      decide
    simp [hc]
  all_goals
    rename_i hc
    simp [hc]

end Sys2Proof
end

section
/-! The statement about illegal words (spec/30_encoding.md R100). -/

namespace Sys2Proof.Machine

/-- Settles O3: the class and the sub-key of a word are its number's digits, and a Cycle that fetches a word without an
instruction takes the error, whatever byte it carries. -/
theorem illegalWordsAreThoseListedAndRaiseDecodeError : Obligations.IllegalWordsAreThoseListedAndRaiseDecodeError := by
  refine ⟨fun w => ?_, fun s rest hc hm hp ⟨r, hr⟩ => ?_⟩
  · rw [decode, dispatch_error_iff, dispatch0_error_iff, dispatch8_error_iff, dispatchE_error_iff, dispatchF_error_iff,
      toNat_div_class, toNat_mod_nn, toNat_mod_n]
  · refine step_takeError hc fun u hum hupc humem => ?_
    have hword : u.currentWord = s.fetchedWord := by
      rw [currentWord_eq_fetchedWord, State.fetchedWord, State.fetchedWord, hupc, humem]
    rw [← hword]
    exact cycle_of_decodeError (hum.trans hm) (hupc ▸ (fetchCheck_eq_none _).2 hp) (hword ▸ hr)

end Sys2Proof.Machine
end

section
/-! What an instruction does to memory and the mode, and what every event keeps: the parts of the invariant (spec/10_state.md
R23, R37; spec/20_memory.md R65; spec/60_exceptions.md R300, R305). -/

namespace Sys2Proof.Machine

/-! ## Memory -/

/-- A range check answers an error, or goes on with a block in range. -/
theorem guardRange_cases (s next : State) (first count : Nat) :
    s.guardRange first count next = s.raise .addressRangeError (.address (max first 0x1000)) ∨
      (count = 0 ∨ first + count - 1 < 4096) ∧ s.guardRange first count next = next := by
  by_cases h : count = 0 ∨ first + count - 1 < 4096
  · exact .inr ⟨h, guardRange_of_in_range s next h⟩
  · exact .inl (guardRange_of_out_of_range s next (by omega) (by omega))

/-- Only LD B and LD [I] write memory. -/
theorem Completes.mem_eq {i : Instr} {s t : State} (h : Completes i s t) (hB : ∀ x, i ≠ .ldB x)
    (hS : ∀ x, i ≠ .storeRegs x) : t.mem = s.mem := by
  cases i
  case ldB x => exact absurd rfl (hB x)
  case storeRegs x => exact absurd rfl (hS x)
  case jp | jpV0 | ldVxK | ldDTVx | ldSTVx | cls => obtain rfl := h; rfl
  case ret | rnd | drw | loadRegs => obtain ⟨_, _, rfl⟩ := h; rfl
  all_goals obtain ⟨_, rfl⟩ := h; rfl

/-- `m'` is the memory of `s` with one block of bytes written from I, which lies in the 4096 bytes there are and in what
`i` stores to. -/
def StoresBlock (i : Instr) (s : State) (m' : Memory) : Prop :=
  ∃ bs : List Byte, m' = s.mem.writeList s.I.toNat bs ∧ s.I.toNat + bs.length ≤ 4096 ∧
    ∀ a, s.I.toNat ≤ a → a < s.I.toNat + bs.length → storesTo i s a

theorem storesBlock_ldB (x : Reg) (s : State) :
    ∃ t, exec (.ldB x) s = .next t ∧ (t.mem = s.mem ∨ StoresBlock (.ldB x) s t.mem) := by
  refine ⟨_, rfl, ?_⟩
  obtain h | ⟨hin, h⟩ := guardRange_cases s (s.storeBytes s.I.toNat (bcdDigits (s.getV x))).advance s.I.toNat 3
  · exact .inl ((congrArg State.mem h).trans (State.raise_mem s _ _))
  · refine .inr ⟨bcdDigits (s.getV x), congrArg State.mem h, ?_, fun a h1 h2 => ⟨h1, h2⟩⟩
    have hlen : (bcdDigits (s.getV x)).length = 3 := rfl
    omega

theorem storesBlock_storeRegs (x : Reg) (s : State) :
    ∃ t, exec (.storeRegs x) s = .next t ∧ (t.mem = s.mem ∨ StoresBlock (.storeRegs x) s t.mem) := by
  by_cases h : s.I.toNat + x.val < 4096
  · refine ⟨_, exec_storeRegs_of_in_range h, .inr ⟨s.lowRegs x, rfl, ?_, ?_⟩⟩ <;> rw [length_lowRegs]
    · omega
    · exact fun a h1 h2 => ⟨h1, h2⟩
  · exact ⟨_, congrArg Host.Outcome.next (guardRange_of_out_of_range s _ (by omega) (by omega)), .inl rfl⟩

/-- EVERY INSTRUCTION leaves memory alone, or writes the block it stores to. -/
theorem mem_of_exec {i : Instr} {s t : State} (h : exec i s = .next t) : t.mem = s.mem ∨ StoresBlock i s t.mem := by
  cases i
  case ldB x =>
    obtain ⟨u, hu, hmem⟩ := storesBlock_ldB x s
    exact Host.Outcome.next.inj (hu.symm.trans h) ▸ hmem
  case storeRegs x =>
    obtain ⟨u, hu, hmem⟩ := storesBlock_storeRegs x s
    exact Host.Outcome.next.inj (hu.symm.trans h) ▸ hmem
  all_goals
    obtain ⟨_, _, rfl⟩ | hc := raisesOrCompletes_of_exec h
    · exact .inl rfl
    · exact .inl (hc.mem_eq (fun _ => nofun) (fun _ => nofun))

/-- No byte outside a written block changes. -/
theorem Memory.read_writeList_of_outside {bs : List Byte} (m : Memory) {a b : Nat} (h : b < a ∨ a + bs.length ≤ b) :
    (m.writeList a bs).read b = m.read b := by
  rw [Memory.read_writeList]
  split
  · rw [List.getElem?_eq_none (by omega), Option.getD_none]
  · rfl

theorem StoresBlock.read_eq {i : Instr} {s : State} {m' : Memory} (h : StoresBlock i s m') {a : Nat}
    (ha : ¬ storesTo i s a) : m'.read a = s.mem.read a := by
  obtain ⟨bs, rfl, -, hst⟩ := h
  refine Memory.read_writeList_of_outside s.mem ?_
  by_contra hin
  exact ha (hst a (by omega) (by omega))

theorem StoresBlock.wf {i : Instr} {s : State} {m' : Memory} (h : StoresBlock i s m') (hs : s.mem.wf) : m'.wf := by
  obtain ⟨bs, rfl, hle, -⟩ := h
  exact Memory.wf_writeList _ bs hs hle

/-! ## The mode -/

theorem modeSound_of_running {s : State} (h : s.mode = .running) : s.modeSound = true := by
  simp [State.modeSound, h]

/-- An error whose record fits its kind leaves a sound mode: the record holds the pc. -/
theorem modeSound_takeError {s : State} {kind : ErrorKind} {word : Option Word} {info : FaultInfo}
    (h : FaultRecord.sound ⟨kind, s.pc, word, info⟩ = true) : (s.takeError kind word info).modeSound = true := by
  simp [State.modeSound, h]

theorem modeSound_guardRange {s next : State} {first count : Nat} (h : next.modeSound = true) :
    (s.guardRange first count next).modeSound = true := by
  obtain hr | ⟨-, hr⟩ := guardRange_cases s next first count
  · rw [hr]
    exact modeSound_takeError (by simp [FaultRecord.sound])
  · rwa [hr]

theorem modeSound_setI {s : State} (v : Nat) (h : s.mode = .running) : (s.setI v State.advance).modeSound = true := by
  by_cases hv : v ≤ 0xFFFF
  · rw [setI_of_le s _ hv]
    exact modeSound_of_running h
  · rw [setI_of_gt s _ (by omega)]
    exact modeSound_takeError (by simp [FaultRecord.sound]; omega)

theorem modeSound_skipOnKey {s : State} (x : Reg) (f : Bool → Bool) (h : s.mode = .running) :
    (s.skipOnKey x f).modeSound = true := by
  unfold State.skipOnKey
  split
  next hk =>
    have hlt := (s.getV x).isLt
    have hge : 16 ≤ (s.getV x).toNat := by
      by_contra hlt
      simp [keyOf, Nat.not_le.1 hlt] at hk
    exact modeSound_takeError (by simp [FaultRecord.sound, hge]; omega)
  next => exact modeSound_of_running h

theorem modeSound_ret {s : State} (h : s.mode = .running) : ∃ t, exec .ret s = .next t ∧ t.modeSound = true := by
  by_cases h0 : s.sp.val = 0
  · exact ⟨_, execRet_empty s h0, modeSound_takeError rfl⟩
  · exact ⟨_, execRet_of_pos s ⟨s.sp.val - 1, by omega⟩ (by simp only; omega), modeSound_of_running h⟩

theorem modeSound_call (nnn : Addr) {s : State} (h : s.mode = .running) :
    ∃ t, exec (.call nnn) s = .next t ∧ t.modeSound = true := by
  by_cases h16 : s.sp.val < 16
  · exact ⟨_, execCall_of_lt nnn s h16, modeSound_of_running h⟩
  · exact ⟨_, execCall_full nnn s (by omega), modeSound_takeError rfl⟩

/-- EVERY INSTRUCTION run at a fetchable pc leaves a sound mode. -/
theorem exec_modeSound (i : Instr) {s : State} (hm : s.mode = .running) (hp : PcFetchable s.pc) :
    ∃ t, exec i s = .next t ∧ t.modeSound = true :=
  match i with
  | .ret => modeSound_ret hm
  | .call nnn => modeSound_call nnn hm
  | .skp x | .sknp x => ⟨_, rfl, modeSound_skipOnKey x _ hm⟩
  | .ldI _ | .addI _ | .ldF _ => ⟨_, rfl, modeSound_setI _ hm⟩
  | .drw _ _ _ | .ldB _ => ⟨_, rfl, modeSound_guardRange (modeSound_of_running hm)⟩
  | .storeRegs _ | .loadRegs _ => ⟨_, rfl, modeSound_guardRange (modeSound_setI _ hm)⟩
  | .ldVxK _ => ⟨_, rfl, decide_eq_true hp⟩
  | .rnd _ _ => ⟨_, rfl, modeSound_of_running ((congrArg State.mode (afterRandom_eq s)).trans hm)⟩
  | .jp _ | .jpV0 _ | .ldDTVx _ | .ldSTVx _ | .cls | .seByte _ _ | .sneByte _ _ | .seReg _ _ | .sneReg _ _ | .ldByte _ _
  | .addByte _ _ | .ldReg _ _ | .orReg _ _ | .andReg _ _ | .xorReg _ _ | .addReg _ _ | .subReg _ _ | .shr _ _ | .subn _ _
  | .shl _ _ | .ldVxDT _ => ⟨_, rfl, modeSound_of_running hm⟩

theorem modeSound_of_exec {i : Instr} {s t : State} (hm : s.mode = .running) (hp : PcFetchable s.pc)
    (h : exec i s = .next t) : t.modeSound = true := by
  obtain ⟨u, hu, hs⟩ := exec_modeSound i hm hp
  exact Host.Outcome.next.inj (hu.symm.trans h) ▸ hs

/-! ## The stack and the pc -/

/-- Every entry in use is an address an instruction can be fetched at (spec/10_state.md R37). -/
def State.StackFetchable (s : State) : Prop := ∀ j : Fin 16, j.val < s.sp.val → PcFetchable s.stack[j.val]

/-- CALL pushes the pc of an instruction that was fetched, and no other entry changes. -/
theorem Completes.stackFetchable {i : Instr} {s t : State} (h : Completes i s t) (hp : PcFetchable s.pc)
    (hs : s.StackFetchable) : t.StackFetchable := by
  cases i
  case call =>
    obtain ⟨hsp, rfl⟩ := h
    intro j hj
    simp only [Vector.getElem_set]
    split
    · exact hp
    · exact hs j (by simp only at hj; omega)
  case ret =>
    obtain ⟨k, hk, rfl⟩ := h
    exact fun j hj => hs j (by simp only [Fin.val_castSucc] at hj; omega)
  case jp | jpV0 | ldVxK | ldDTVx | ldSTVx | cls => obtain rfl := h; exact hs
  case rnd | drw | storeRegs | loadRegs => obtain ⟨_, _, rfl⟩ := h; exact hs
  all_goals obtain ⟨_, rfl⟩ := h; exact hs

/-- A target is at most 0xFFF + 0xFF, and an advance starts from a fetchable address (spec/10_state.md R23). -/
theorem pc_le_of_nextPc {i : Instr} {s : State} {p : Word} (h : nextPc i s p) (hp : PcFetchable s.pc)
    (hs : s.StackFetchable) : p.toNat ≤ 0x10FE := by
  obtain ⟨-, hpc, -⟩ := hp
  have hadvance : (s.pc + 2).toNat ≤ 0x10FE := by bv_omega
  have hskip : (s.pc + 4).toNat ≤ 0x10FE := by bv_omega
  cases i
  case ret =>
    obtain ⟨j, hj, rfl⟩ := h
    obtain ⟨-, hle, -⟩ := hs j (by omega)
    bv_omega
  case jp nnn | call nnn =>
    have hlt := nnn.isLt
    simp only [nextPc] at h
    omega
  case jpV0 nnn =>
    have hlt := nnn.isLt
    have hV := (s.getV 0).isLt
    simp only [nextPc] at h
    omega
  case seByte | sneByte | seReg | sneReg | skp | sknp =>
    obtain rfl | rfl := h
    · exact hadvance
    · exact hskip
  case ldVxK => obtain rfl := h; omega
  all_goals obtain rfl := h; exact hadvance

/-! ## The invariant -/

/-- EVERY INSTRUCTION run at a fetchable pc keeps the invariant. -/
theorem inv_of_exec {i : Instr} {s t : State} (hi : s.Inv) (hm : s.mode = .running) (hp : PcFetchable s.pc)
    (h : exec i s = .next t) : t.Inv := by
  obtain ⟨hwf, hpc, hs, -⟩ := hi
  have hwf' : t.mem.wf := (mem_of_exec h).elim (fun he => he ▸ hwf) fun hst => hst.wf hwf
  have hmode := modeSound_of_exec hm hp h
  obtain ⟨_, _, rfl⟩ | hc := raisesOrCompletes_of_exec h
  · exact ⟨hwf', hpc, hs, hmode⟩
  · exact ⟨hwf', pc_le_of_nextPc hc.nextPc_pc hp hs, hc.stackFetchable hp hs, hmode⟩

/-- An error whose record fits its kind keeps it. -/
theorem inv_takeError {s : State} {kind : ErrorKind} {word : Option Word} {info : FaultInfo} (hi : s.Inv)
    (h : FaultRecord.sound ⟨kind, s.pc, word, info⟩ = true) : (s.takeError kind word info).Inv := by
  obtain ⟨hwf, hpc, hs, -⟩ := hi
  exact ⟨hwf, hpc, hs, modeSound_takeError h⟩

/-- Both errors of the fetch check fit their records. -/
theorem sound_of_fetchCheck {pc : Nat} {kind : ErrorKind} {info : FaultInfo}
    (h : fetchCheck strictPc pc = some (kind, info)) (p : Word) : FaultRecord.sound ⟨kind, p, none, info⟩ = true := by
  unfold fetchCheck at h
  split at h
  · cases h; simp [FaultRecord.sound]
  · split at h
    · cases h; rfl
    · cases h

/-- What a Cycle in mode Running does: an error of the fetch, of the decoding, or an instruction at a fetchable pc. -/
theorem cycle_of_running {s : State} (hm : s.mode = .running) :
    (∃ kind info, fetchCheck strictPc s.pc.toNat = some (kind, info) ∧ s.cycle = .next (s.takeError kind none info)) ∨
    (s.cycle = .next (s.takeError .decodeError (some s.currentWord) .none)) ∨
    ∃ i, PcFetchable s.pc ∧ s.cycle = exec i s := by
  cases hf : fetchCheck strictPc s.pc.toNat with
  | some e => exact .inl ⟨e.1, e.2, rfl, cycle_of_fetchError hm hf⟩
  | none =>
    cases hd : decode s.currentWord with
    | error r => exact .inr (.inl (cycle_of_decodeError hm hf hd))
    | ok i => exact .inr (.inr ⟨i, (fetchCheck_eq_none _).1 hf, cycle_of_decode hm hf hd⟩)

theorem cycle_of_faulted {s : State} {rec : FaultRecord} (hm : s.mode = .faulted rec) : s.cycle = .next s := by
  simp [State.cycle, hm]

theorem inv_of_cycle {s t : State} (hi : s.Inv) (h : s.cycle = .next t) : t.Inv := by
  cases hm : s.mode with
  | waitingForKey x => exact Host.Outcome.next.inj ((cycle_of_waiting hm).symm.trans h) ▸ hi
  | faulted rec => exact Host.Outcome.next.inj ((cycle_of_faulted hm).symm.trans h) ▸ hi
  | running =>
    obtain ⟨kind, info, hf, hc⟩ | hc | ⟨i, hp, hc⟩ := cycle_of_running hm
    · exact Host.Outcome.next.inj (hc.symm.trans h) ▸ inv_takeError hi (sound_of_fetchCheck hf s.pc)
    · exact Host.Outcome.next.inj (hc.symm.trans h) ▸ inv_takeError hi rfl
    · exact inv_of_exec hi hm hp (hc.symm.trans h)

end Sys2Proof.Machine
end

section
/-! What each of the host's events does (spec/60_exceptions.md R310, R320 to R324, R306; spec/45_timers_input.md R236). -/

namespace Sys2Proof.Machine

/-! ## A Cycle -/

theorem mapNext_eq_next {f : State → State} {r : Result} {t : State} (h : mapNext f r = .next t) :
    ∃ u, r = .next u ∧ t = f u := by
  cases r with
  | next u => exact ⟨u, rfl, (Host.Outcome.next.inj h).symm⟩
  | fault r => cases h
  | refused r => cases h

/-- A cycle always answers a next state (R304, R327). -/
theorem cycle_answers (s : State) : ∃ t, s.cycle = .next t := by
  cases hm : s.mode with
  | waitingForKey x => exact ⟨s, cycle_of_waiting hm⟩
  | faulted rec => exact ⟨s, cycle_of_faulted hm⟩
  | running =>
    obtain ⟨kind, info, -, hc⟩ | hc | ⟨i, -, hc⟩ := cycle_of_running hm
    · exact ⟨_, hc⟩
    · exact ⟨_, hc⟩
    · obtain ⟨t, ht, -⟩ := exec_outcome i s
      exact ⟨t, hc.trans ht⟩

theorem deliver_answers (s : State) (e : HostEvent) : ∃ t, s.deliver e = .next t := by
  cases e with
  | cycle r =>
    obtain ⟨t, ht⟩ := cycle_answers { s with rand := some r }
    exact ⟨_, congrArg (mapNext _) ht⟩
  | tick => exact ⟨_, rfl⟩
  | keys v => exact ⟨_, rfl⟩
  | clearRedraw => exact ⟨_, rfl⟩

/-- A step with an event listed takes it off the list and delivers it. -/
theorem step_of_inputs {s : State} {e : HostEvent} {rest : List HostEvent} (h : s.inputs = e :: rest) :
    step s = { s with inputs := rest }.deliver e := by
  rw [step, h]

/-! ## A Tick (R310) -/

theorem tick_of_not_faulted {s : State} (h : s.isFaulted = false) :
    s.tick = { s with DT := tickTimer s.DT, ST := tickTimer s.ST } := by
  cases hm : s.mode with
  | faulted rec => simp [State.isFaulted, hm] at h
  | running | waitingForKey x => simp [State.tick, hm]

theorem tick_of_faulted {s : State} {rec : FaultRecord} (h : s.mode = .faulted rec) : s.tick = s := by
  simp [State.tick, h]

/-- In every mode, at most the timers change. -/
theorem tick_eq (s : State) : s.tick = { s with DT := s.tick.DT, ST := s.tick.ST } := by
  unfold State.tick
  split <;> rfl

/-! ## The key vector (R323) -/

theorem setKeys_of_running {s : State} (v : KeyVec) (h : s.mode = .running) : s.setKeys v = { s with keys := v } := by
  simp [State.setKeys, h]

theorem setKeys_of_faulted {s : State} {rec : FaultRecord} (v : KeyVec) (h : s.mode = .faulted rec) :
    s.setKeys v = s := by
  simp [State.setKeys, h]

/-- A wait goes on when no key was newly pressed. -/
theorem setKeys_of_waiting_nil {s : State} {x : Reg} {v : KeyVec} (h : s.mode = .waitingForKey x)
    (hv : newlyPressed s.keys v = []) : s.setKeys v = { s with keys := v } := by
  simp [State.setKeys, h, hv, waitPick]

/-- It is completed by one of the newly pressed keys when there are some (R236). -/
theorem setKeys_of_waiting {s : State} {x : Reg} {v : KeyVec} (h : s.mode = .waitingForKey x)
    (hv : newlyPressed s.keys v ≠ []) :
    ∃ k ∈ newlyPressed s.keys v, s.setKeys v = { s with keys := v }.completeWait x k := by
  obtain ⟨k, hk, hpick⟩ := waitPick_mem s.draws _ hv
  exact ⟨k, hk, by simp [State.setKeys, h, hpick]⟩

/-! ## Faulted is final (R306) -/

/-- Every event changes at most redraw. -/
theorem deliver_of_faulted {s : State} {rec : FaultRecord} (hm : s.mode = .faulted rec) (e : HostEvent) :
    s.deliver e = .next { s with redraw := if e = .clearRedraw then false else s.redraw } := by
  cases e with
  | cycle r =>
    exact congrArg (mapNext fun t => { t with rand := s.rand }) (cycle_of_faulted (s := { s with rand := some r }) hm)
  | tick => exact congrArg Host.Outcome.next (tick_of_faulted hm)
  | keys v => exact congrArg Host.Outcome.next (setKeys_of_faulted v hm)
  | clearRedraw => rfl

/-- A step stays in the mode, with the same record. -/
theorem step_of_faulted {s : State} {rec : FaultRecord} (hm : s.mode = .faulted rec) :
    ∃ t, step s = .next t ∧ t.mode = .faulted rec := by
  cases hi : s.inputs with
  | nil => exact ⟨s, (step_eq_cycle hi).trans (cycle_of_faulted hm), hm⟩
  | cons e rest => exact ⟨_, (step_of_inputs hi).trans (deliver_of_faulted (s := { s with inputs := rest }) hm e), hm⟩

/-! ## The invariant -/

/-- A wait is completed where it stands, at a fetchable pc. -/
theorem inv_completeWait {s : State} {x : Reg} (k : Key) (hi : s.Inv) (hm : s.mode = .waitingForKey x) :
    (s.completeWait x k).Inv := by
  obtain ⟨hwf, -, hs, hmode⟩ := hi
  have hp : PcFetchable s.pc := by simpa [State.modeSound, hm] using hmode
  obtain ⟨-, hpc, -⟩ := hp
  have hpc' : (s.pc + 2).toNat ≤ 0x10FE := by bv_omega
  exact ⟨hwf, hpc', hs, rfl⟩

theorem inv_setKeys {s : State} (v : KeyVec) (hi : s.Inv) : (s.setKeys v).Inv := by
  cases hm : s.mode with
  | running => rw [setKeys_of_running v hm]; exact hi
  | faulted rec => rw [setKeys_of_faulted v hm]; exact hi
  | waitingForKey x =>
    by_cases hv : newlyPressed s.keys v = []
    · rw [setKeys_of_waiting_nil hm hv]
      exact hi
    · obtain ⟨k, -, hk⟩ := setKeys_of_waiting hm hv
      rw [hk]
      exact inv_completeWait (s := { s with keys := v }) k hi hm

/-- EVERY EVENT keeps the invariant. -/
theorem inv_of_deliver {s t : State} {e : HostEvent} (hi : s.Inv) (h : s.deliver e = .next t) : t.Inv := by
  cases e with
  | cycle r =>
    obtain ⟨u, hu, rfl⟩ := mapNext_eq_next h
    have hui : u.Inv := inv_of_cycle (s := { s with rand := some r }) hi hu
    exact hui
  | tick =>
    obtain rfl := Host.Outcome.next.inj h
    rw [tick_eq]
    exact hi
  | keys v => exact Host.Outcome.next.inj h ▸ inv_setKeys v hi
  | clearRedraw =>
    obtain rfl := Host.Outcome.next.inj h
    exact hi

end Sys2Proof.Machine
end

section
/-! The invariant of every run, and what every step answers (spec/10_state.md, spec/60_exceptions.md). -/

namespace Sys2Proof.Machine

/-- Settles O48: a step is a cycle, or the delivery of a listed event, and each keeps the invariant. -/
theorem everyStepKeepsTheInvariant : Obligations.EveryStepKeepsTheInvariant := by
  intro s t hi h
  cases hin : s.inputs with
  | nil => exact inv_of_cycle hi ((step_eq_cycle hin).symm.trans h)
  | cons e rest => exact inv_of_deliver (s := { s with inputs := rest }) hi ((step_of_inputs hin).symm.trans h)

/-- Settles O49: the empty memory is canonical, the stack is empty, and the core runs at 0x200. -/
theorem resetMeetsTheInvariant : Obligations.ResetMeetsTheInvariant :=
  ⟨Memory.wf_nil, by decide, fun _ h => absurd h (Nat.not_lt_zero _), rfl⟩

/-- Settles O8: by the outcome of every instruction and of every event. -/
theorem everyStepAnswersANextState : Obligations.EveryStepAnswersANextState := by
  refine ⟨fun i s => ?_, fun s => ?_⟩
  · obtain ⟨t, ht, -⟩ := exec_outcome i s
    exact ⟨t, ht⟩
  · cases hin : s.inputs with
    | nil => exact step_eq_cycle hin ▸ cycle_answers s
    | cons e rest => exact step_of_inputs hin ▸ deliver_answers { s with inputs := rest } e

/-- Settles O50: an instruction leaves memory alone or writes the block it stores to, and a written block changes no byte
outside it. -/
theorem onlyStoresWriteMemory : Obligations.OnlyStoresWriteMemory := by
  intro i s t a h ha
  obtain hmem | hmem := mem_of_exec h
  · rw [hmem]
  · exact hmem.read_eq ha

end Sys2Proof.Machine
end

section
/-! The statements about the host's events, the mode Faulted and the fetch check (spec/60_exceptions.md,
spec/40_execution_cycle.md R122, spec/45_timers_input.md R233, R236). -/

namespace Sys2Proof.Machine

/-- The completion of a wait puts the key's number into V[x] and nothing into another register. -/
theorem toNat_getV_completeWait_self (s : State) (x : Reg) (k : Key) : ((s.completeWait x k).getV x).toNat = k.val := by
  have hk : (s.completeWait x k).getV x = BitVec.ofNat 8 k.val := s.getV_setV_self x _
  rw [hk, BitVec.toNat_ofNat, Nat.mod_eq_of_lt (by omega)]

theorem getV_completeWait_of_ne (s : State) {x j : Reg} (k : Key) (h : j ≠ x) :
    (s.completeWait x k).getV j = s.getV j :=
  s.getV_setV_of_ne _ h

/-- Settles O40: by the mode, and in a wait by whether a key was newly pressed. -/
theorem keysEventCompletesAWait : Obligations.KeysEventCompletesAWait := by
  intro s v rest hi
  rw [step_of_inputs hi]
  refine ⟨fun hm => congrArg Host.Outcome.next (setKeys_of_running (s := { s with inputs := rest }) v hm),
    fun x hm => ⟨fun hnone => ?_, fun ⟨k, hup, hdown⟩ => ?_⟩⟩
  · have hv : newlyPressed s.keys v = [] :=
      List.eq_nil_iff_forall_not_mem.2 fun k hk => hnone k ((mem_newlyPressed s.keys v k).1 hk).symm
    exact congrArg Host.Outcome.next (setKeys_of_waiting_nil (s := { s with inputs := rest }) hm hv)
  · have hv : newlyPressed s.keys v ≠ [] :=
      List.ne_nil_of_mem ((mem_newlyPressed s.keys v k).2 ⟨hdown, hup⟩)
    obtain ⟨j, hj, hset⟩ := setKeys_of_waiting (s := { s with inputs := rest }) hm hv
    obtain ⟨hjdown, hjup⟩ := (mem_newlyPressed s.keys v j).1 hj
    exact ⟨j, _, hjup, hjdown, congrArg Host.Outcome.next hset, rfl, toNat_getV_completeWait_self _ x j,
      fun _ => getV_completeWait_of_ne _ j⟩

/-- Settles O41: each timer becomes its value one tick later. -/
theorem tickDecrementsBothTimers : Obligations.TickDecrementsBothTimers := by
  intro s rest hi hf
  have htick := tick_of_not_faulted (s := { s with inputs := rest }) hf
  exact ⟨_, (step_of_inputs hi).trans (congrArg Host.Outcome.next htick), rfl, toNat_tickTimer s.DT,
    toNat_tickTimer s.ST⟩

/-- Settles O43: only a Tick emits the cue, and the Tick of an ST of 1 leaves 0. -/
theorem cueMarksTheTickFromOneToZero : Obligations.CueMarksTheTickFromOneToZero := by
  intro s e
  cases e with
  | cycle r => exact ⟨nofun, fun ⟨h, _⟩ => nomatch h⟩
  | keys v => exact ⟨nofun, fun ⟨h, _⟩ => nomatch h⟩
  | clearRedraw => exact ⟨nofun, fun ⟨h, _⟩ => nomatch h⟩
  | tick =>
    refine ⟨fun h => ?_, fun ⟨_, hf, hST, _⟩ => (cue_tick_iff s).2 ⟨hf, BitVec.eq_of_toNat_eq hST⟩⟩
    obtain ⟨hf, hST⟩ := (cue_tick_iff s).1 h
    exact ⟨rfl, hf, congrArg BitVec.toNat hST, _, congrArg Host.Outcome.next (tick_of_not_faulted hf),
      by simp only [toNat_tickTimer, hST]; rfl⟩

/-- Settles O44: ClearRedraw reads no mode. -/
theorem clearRedrawInEveryMode : Obligations.ClearRedrawInEveryMode :=
  fun _ _ hi => step_of_inputs hi

/-- Settles O46: in mode Faulted every event changes at most redraw, and only ClearRedraw does. -/
theorem faultedIsFinal : Obligations.FaultedIsFinal := by
  intro s rec hm
  have hf : s.isFaulted = true := by simp [State.isFaulted, hm]
  refine ⟨fun r => deliver_of_faulted hm _, deliver_of_faulted hm _, fun v => deliver_of_faulted hm _,
    deliver_of_faulted hm _, fun hi => (step_eq_cycle hi).trans (cycle_of_faulted hm), fun e => ?_, fun t ht => ?_,
    fun e rest hi => (step_of_inputs hi).trans (deliver_of_faulted (s := { s with inputs := rest }) hm e)⟩
  · cases e with
    | tick =>
      rw [Bool.eq_false_iff]
      intro hcue
      obtain ⟨hnf, -⟩ := (cue_tick_iff s).1 hcue
      exact Bool.false_ne_true (hnf.symm.trans hf)
    | cycle | keys | clearRedraw => rfl
  · obtain ⟨u, hu, hmu⟩ := step_of_faulted hm
    exact Host.Outcome.next.inj (hu.symm.trans ht) ▸ hmu

/-- Settles O47: by induction on the number of steps, each of which keeps the mode and the record. -/
theorem aFaultedRunStaysFaulted : Obligations.AFaultedRunStaysFaulted := by
  intro n
  induction n with
  | zero => exact fun s rec hm => ⟨s, rfl, hm, by simp [State.Safe, State.isFaulted, hm]⟩
  | succ n ih =>
    intro s rec hm
    obtain ⟨u, hu, hmu⟩ := step_of_faulted hm
    obtain ⟨t, ht, hend⟩ := ih u rec hmu
    have hrun : Host.Core.run core (n + 1) s = Host.Core.run core n u := by
      simp only [Host.Core.run, show core.step s = .next u from hu]
    exact ⟨t, hrun.trans ht, hend⟩

/-- Settles O6: a fetch that fails its check takes the check's error, whatever byte its Cycle carries. -/
theorem fetchCheckErrors : Obligations.FetchCheckErrors := by
  intro s rest hc hm
  have herror {kind : ErrorKind} {info : FaultInfo} (hf : fetchCheck strictPc s.pc.toNat = some (kind, info)) :
      step s = .next ({ s with inputs := rest }.takeError kind none info) :=
    step_takeError hc fun u hum hupc _ => cycle_of_fetchError (hum.trans hm) (hupc ▸ hf)
  exact ⟨fun hgt => herror (fetchCheck_of_gt hgt), fun hle hbad => herror (fetchCheck_of_odd_or_low hle hbad)⟩

/-- Settles O38: by the handler's definition. -/
theorem waitForKeyIsEntered : Obligations.WaitForKeyIsEntered :=
  fun _ _ => rfl

/-- Settles O45: an error holds the pc and the word, and a completed instruction leaves the core running or waiting. -/
theorem errorsArePrecise : Obligations.ErrorsArePrecise := by
  intro i s t rec hm h hf
  obtain ⟨kind, info, rfl⟩ | hc := raisesOrCompletes_of_exec h
  · obtain rfl := Mode.faulted.inj ((State.raise_mode s kind info).symm.trans hf)
    exact ⟨rfl, rfl, congrArg some (currentWord_eq_fetchedWord s)⟩
  · by_cases hK : ∃ x, i = .ldVxK x
    · obtain ⟨x, rfl⟩ := hK
      have hwait : t.mode = .waitingForKey x := congrArg State.mode hc
      exact nomatch hwait.symm.trans hf
    · have hrun : t.mode = .running := (hc.mode_eq fun x hx => hK ⟨x, hx⟩).trans hm
      exact nomatch hrun.symm.trans hf

end Sys2Proof.Machine
end

section
/-! What a result with a flag, a shift and a random byte leave (spec/42_alu.md R166 to R171). -/

namespace Sys2Proof.Machine

variable (s : State)

/-! ## A result and its flag, the flag written last (decision D5) -/

theorem State.setResultFlag_eq (x : Reg) (b flag : Byte) :
    s.setResultFlag x b flag = { s with V := (s.setResultFlag x b flag).V, pc := s.pc + 2 } := rfl

@[simp] theorem State.getV_setResultFlag_VF (x : Reg) (b flag : Byte) : (s.setResultFlag x b flag).getV VF = flag :=
  (s.setV x b).getV_setV_self VF flag

@[simp] theorem State.getV_setResultFlag_self {x : Reg} (b flag : Byte) (h : x ≠ VF) :
    (s.setResultFlag x b flag).getV x = b :=
  ((s.setV x b).getV_setV_of_ne flag h).trans (s.getV_setV_self x b)

@[simp] theorem State.getV_setResultFlag_of_ne {x k : Reg} (b flag : Byte) (hx : k ≠ x) (hF : k ≠ VF) :
    (s.setResultFlag x b flag).getV k = s.getV k :=
  ((s.setV x b).getV_setV_of_ne flag hF).trans (s.getV_setV_of_ne b hx)

theorem exec_addReg (x y : Reg) : exec (.addReg x y) s =
    .next (s.setResultFlag x (sumByte (s.getV x) (s.getV y)) (carryFlag (s.getV x) (s.getV y))) := rfl

theorem exec_subReg (x y : Reg) : exec (.subReg x y) s =
    .next (s.setResultFlag x (diffByte (s.getV x) (s.getV y)) (notBorrowFlag (s.getV x) (s.getV y))) := rfl

theorem exec_subn (x y : Reg) : exec (.subn x y) s =
    .next (s.setResultFlag x (diffByte (s.getV y) (s.getV x)) (notBorrowFlag (s.getV y) (s.getV x))) := rfl

/-! ## A shift of V[X] in place, the flag written first (decisions D3, D4) -/

variable (flag result : Byte → Byte)

theorem State.shiftInto_eq (x : Reg) :
    s.shiftInto x x flag result = { s with V := (s.shiftInto x x flag result).V, pc := s.pc + 2 } := rfl

theorem State.getV_shiftInto_self {x : Reg} (h : x ≠ VF) : (s.shiftInto x x flag result).getV x = result (s.getV x) :=
  ((s.setV VF _).getV_setV_self x _).trans (congrArg result (s.getV_setV_of_ne _ h))

theorem State.getV_shiftInto_VF {x : Reg} (h : x ≠ VF) : (s.shiftInto x x flag result).getV VF = flag (s.getV x) :=
  ((s.setV VF _).getV_setV_of_ne _ h.symm).trans (s.getV_setV_self VF _)

/-- With X = F the flag itself is shifted. -/
theorem State.getV_shiftInto_VF_VF : (s.shiftInto VF VF flag result).getV VF = result (flag (s.getV VF)) :=
  ((s.setV VF _).getV_setV_self VF _).trans (congrArg result (s.getV_setV_self VF _))

theorem State.getV_shiftInto_of_ne {x k : Reg} (hx : k ≠ x) (hF : k ≠ VF) :
    (s.shiftInto x x flag result).getV k = s.getV k :=
  ((s.setV VF _).getV_setV_of_ne _ hx).trans (s.getV_setV_of_ne _ hF)

theorem exec_shr (x y : Reg) : exec (.shr x y) s = .next (s.shiftInto x x shrFlag shrByte) := rfl

theorem exec_shl (x y : Reg) : exec (.shl x y) s = .next (s.shiftInto x x shlFlag shlByte) := rfl

/-! ## The random byte (decision D27) -/

theorem exec_rnd (x : Reg) (nn : Byte) : exec (.rnd x nn) s = .next (s.afterRandom.setResult x (s.randomByte &&& nn)) := rfl

theorem getV_afterRandom (k : Reg) : s.afterRandom.getV k = s.getV k := by
  rw [afterRandom_eq]
  rfl

theorem afterRandom_of_some {s : State} {r : Byte} (h : s.rand = some r) : s.afterRandom = s := by
  simp [State.afterRandom, h]

theorem afterRandom_of_none {s : State} (h : s.rand = none) : s.afterRandom = { s with draws := s.draws + 1 } := by
  simp [State.afterRandom, h]

theorem randomByte_of_some {s : State} {r : Byte} (h : s.rand = some r) : s.randomByte = r := by
  simp [State.randomByte, h]

/-! ## The bitwise operations -/

theorem exec_orReg (x y : Reg) : exec (.orReg x y) s = .next (s.setResult x (s.getV x ||| s.getV y)) := rfl

theorem exec_andReg (x y : Reg) : exec (.andReg x y) s = .next (s.setResult x (s.getV x &&& s.getV y)) := rfl

theorem exec_xorReg (x y : Reg) : exec (.xorReg x y) s = .next (s.setResult x (s.getV x ^^^ s.getV y)) := rfl

end Sys2Proof.Machine
end

section
/-! The other statements about the ALU (spec/42_alu.md R163 to R171), and about JP V0 (spec/41_control.md R147). -/

namespace Sys2Proof.Machine

/-- Settles O21: the byte difference and the NOT borrow of the old operands, in both orders. -/
theorem subtractionsSetNotBorrow : Obligations.SubtractionsSetNotBorrow := by
  intro x y s
  constructor
  · refine ⟨_, exec_subReg s x y, s.setResultFlag_eq x _ _, fun hx => ?_, ?_, fun k => s.getV_setResultFlag_of_ne _ _⟩
    · rw [s.getV_setResultFlag_self _ _ hx, toNat_diffByte]
    · rw [s.getV_setResultFlag_VF, toNat_notBorrowFlag]
  · refine ⟨_, exec_subn s x y, s.setResultFlag_eq x _ _, fun hx => ?_, ?_, fun k => s.getV_setResultFlag_of_ne _ _⟩
    · rw [s.getV_setResultFlag_self _ _ hx, toNat_diffByte]
    · rw [s.getV_setResultFlag_VF, toNat_notBorrowFlag]

/-- Settles O20: the byte sum and the carry of the old operands. -/
theorem addSetsCarry : Obligations.AddSetsCarry := by
  intro x y s
  refine ⟨_, exec_addReg s x y, s.setResultFlag_eq x _ _, fun hx => ?_, ?_, fun k => s.getV_setResultFlag_of_ne _ _⟩
  · rw [s.getV_setResultFlag_self _ _ hx, toNat_sumByte]
  · rw [s.getV_setResultFlag_VF, toNat_carryFlag]

/-- Settles O22: with X = F the shift reads the flag just written, of which SHR leaves nothing and SHL the double. -/
theorem shiftsWriteTheFlagFirst : Obligations.ShiftsWriteTheFlagFirst := by
  intro x y s
  constructor
  · refine ⟨_, exec_shr s x y, s.shiftInto_eq shrFlag shrByte x, fun hx => ⟨?_, ?_⟩, ?_,
      fun k => s.getV_shiftInto_of_ne shrFlag shrByte⟩
    · rw [s.getV_shiftInto_self _ _ hx, toNat_shrByte]
    · rw [s.getV_shiftInto_VF _ _ hx, toNat_shrFlag]
    · rintro rfl
      refine BitVec.eq_of_toNat_eq ?_
      rw [s.getV_shiftInto_VF_VF, toNat_shrByte, toNat_shrFlag]
      exact Nat.div_eq_of_lt (Nat.mod_lt _ Nat.two_pos)
  · refine ⟨_, exec_shl s x y, s.shiftInto_eq shlFlag shlByte x, fun hx => ⟨?_, ?_⟩, ?_,
      fun k => s.getV_shiftInto_of_ne shlFlag shlByte⟩
    · rw [s.getV_shiftInto_self _ _ hx, toNat_shlByte]
    · rw [s.getV_shiftInto_VF _ _ hx, toNat_shlFlag]
    · rintro rfl
      have hlt := (s.getV VF).isLt
      rw [s.getV_shiftInto_VF_VF, toNat_shlByte, toNat_shlFlag]
      omega

/-- Settles O19: a bit of the result is the operation on the operands' bits. -/
theorem logicalOperationsAreBitwise : Obligations.LogicalOperationsAreBitwise := by
  intro x y s
  refine ⟨⟨_, exec_orReg s x y, s.setResult_eq x _, fun b => ?_, fun k => s.getV_setResult_of_ne _⟩,
    ⟨_, exec_andReg s x y, s.setResult_eq x _, fun b => ?_, fun k => s.getV_setResult_of_ne _⟩,
    ⟨_, exec_xorReg s x y, s.setResult_eq x _, fun b => ?_, fun k => s.getV_setResult_of_ne _⟩⟩
  · rw [s.getV_setResult_self, BitVec.getLsbD_or]
  · rw [s.getV_setResult_self, BitVec.getLsbD_and]
  · rw [s.getV_setResult_self, BitVec.getLsbD_xor]

/-- Settles O23: the byte at hand, or the free value, which is drawn once. -/
theorem randomByteIsMasked : Obligations.RandomByteIsMasked := by
  intro x nn s
  refine ⟨fun r hr => ?_, fun hr => ?_⟩
  · have hexec : exec (.rnd x nn) s = .next (s.setResult x (r &&& nn)) := by
      rw [exec_rnd, afterRandom_of_some hr, randomByte_of_some hr]
    exact ⟨_, hexec, s.setResult_eq x _, s.getV_setResult_self x _, fun k => s.getV_setResult_of_ne _⟩
  · have hexec := exec_rnd s x nn
    rw [afterRandom_of_none hr] at hexec
    exact ⟨_, hexec, rfl, ⟨s.randomByte, State.getV_setResult_self _ x _⟩, fun k => State.getV_setResult_of_ne _ _⟩

/-- Settles O16: the sum of a 12-bit and an 8-bit number does not wrap, which is the pc rule of a completed JP V0. -/
theorem jumpWithOffsetIsTheNaturalSum : Obligations.JumpWithOffsetIsTheNaturalSum := by
  intro nnn s
  have hc : Completes (.jpV0 nnn) s (s.jump (addrWord nnn + (s.getV 0).setWidth 16)) := rfl
  exact ⟨_, rfl, rfl, hc.nextPc_pc⟩

end Sys2Proof.Machine
end

section
/-! What the other operations on I, on memory and on the keys leave, in range and out of it (spec/43_index_memory.md R191 to
R196, spec/45_timers_input.md R230, R231). -/

namespace Sys2Proof.Machine

/-! ## I -/

theorem exec_addI_of_le {x : Reg} {s : State} (h : s.I.toNat + (s.getV x).toNat ≤ 0xFFFF) :
    exec (.addI x) s = .next { s with I := BitVec.ofNat 16 (s.I.toNat + (s.getV x).toNat) }.advance :=
  congrArg Host.Outcome.next (setI_of_le s State.advance h)

/-- GLYPH_BASE is 0 (decision D14). -/
theorem glyphAddress_eq (v : Byte) : glyphAddress v = 5 * v.toNat := Nat.zero_add _

theorem glyphAddress_le (v : Byte) : glyphAddress v ≤ 0xFFFF := by
  have hv := v.isLt
  rw [glyphAddress_eq]
  omega

/-- SetI does not raise. -/
theorem exec_ldF (x : Reg) (s : State) :
    exec (.ldF x) s = .next { s with I := BitVec.ofNat 16 (glyphAddress (s.getV x)) }.advance :=
  congrArg Host.Outcome.next (setI_of_le s State.advance (glyphAddress_le _))

/-! ## LD B, Vx -/

theorem exec_ldB_of_in_range {x : Reg} {s : State} (h : s.I.toNat + 2 < 4096) :
    exec (.ldB x) s = .next (s.storeBytes s.I.toNat (bcdDigits (s.getV x))).advance :=
  congrArg Host.Outcome.next (guardRange_of_in_range s _ (.inr (by omega)))

/-- Each digit fits a byte. -/
theorem toNat_digits (v : Byte) : (BitVec.ofNat 8 (v.toNat / 100)).toNat = v.toNat / 100 ∧
    (BitVec.ofNat 8 (v.toNat / 10 % 10)).toNat = v.toNat / 10 % 10 ∧
    (BitVec.ofNat 8 (v.toNat % 10)).toNat = v.toNat % 10 := by
  have hv := v.isLt
  simp only [BitVec.toNat_ofNat]
  omega

/-- Byte k of a written block. -/
theorem Memory.read_writeList_of_inside (m : Memory) (a : Nat) {bs : List Byte} {k : Nat} (h : k < bs.length) :
    (m.writeList a bs).read (a + k) = bs[k] := by
  rw [Memory.read_writeList, if_pos (Nat.le_add_right a k), Nat.add_sub_cancel_left, List.getElem?_eq_getElem h,
    Option.getD_some]

/-! ## LD [I], Vx and LD Vx, [I] -/

/-- I is advanced past a block in range without a wrap (decision D15). -/
theorem toNat_advanced_I {s : State} {x : Reg} (h : s.I.toNat + x.val < 4096) :
    (BitVec.ofNat 16 (s.I.toNat + x.val + 1)).toNat = s.I.toNat + x.val + 1 := by
  rw [BitVec.toNat_ofNat]
  omega

/-- A register above the block is as before the load. -/
theorem getV_loadedRegs_of_gt (s : State) {x k : Reg} (h : x < k) : (s.loadedRegs x).getV k = s.getV k :=
  (getElem_loadInto s.mem s.I.toNat (x.val + 1) s.V k.val k.isLt).trans (if_neg (Nat.not_lt.2 h))

/-! ## Blocks out of range -/

/-- A block of `count` bytes from I whose last byte does not exist raises, whatever would follow. -/
theorem guardRange_faults (s next : State) {count : Nat} (h0 : 0 < count) (h : 4096 ≤ s.I.toNat + count - 1) :
    Host.Outcome.next (s.guardRange s.I.toNat count next) = (.next (s.faultedWith .addressRangeError (some s.fetchedWord)
      (.address (max s.I.toNat 0x1000))) : Result) :=
  congrArg Host.Outcome.next ((guardRange_of_out_of_range s next h0 h).trans (raise_eq_faultedWith s _ _))

/-! ## Skips on keys -/

theorem skipOnKey_of_key {s : State} {x : Reg} {k : Key} (f : Bool → Bool) (h : (s.getV x).toNat = k.val) :
    s.skipOnKey x f = s.skipIf (f (keyDown s.keys k)) := by
  simp only [State.skipOnKey, keyOf_of_lt h]

theorem skipOnKey_of_gt {s : State} {x : Reg} (f : Bool → Bool) (h : 15 < (s.getV x).toNat) :
    s.skipOnKey x f = s.faultedWith .keyRangeError (some s.fetchedWord) (.key (s.getV x).toNat) := by
  simp only [State.skipOnKey, keyOf_of_gt h, raise_eq_faultedWith]

end Sys2Proof.Machine
end

section
/-! The other statements about I, memory transfers and key skips (spec/43_index_memory.md, spec/45_timers_input.md). -/

namespace Sys2Proof.Machine

/-- Settles O27: the digits are the written block, which ends at I + 2. -/
theorem decimalDigitsStored : Obligations.DecimalDigitsStored := by
  intro x s h
  obtain ⟨h100, h10, h1⟩ := toNat_digits (s.getV x)
  have hdigit {k : Nat} (hk : k < 3) := Memory.read_writeList_of_inside s.mem s.I.toNat (bs := bcdDigits (s.getV x)) hk
  exact ⟨_, exec_ldB_of_in_range h, rfl, (congrArg BitVec.toNat (hdigit (k := 0) (by omega))).trans h100,
    (congrArg BitVec.toNat (hdigit (k := 1) (by omega))).trans h10,
    (congrArg BitVec.toNat (hdigit (k := 2) (by omega))).trans h1,
    fun a => onlyStoresWriteMemory _ s _ a (exec_ldB_of_in_range h)⟩

/-- Settles O28: byte k of the stored block is V[k], and no byte outside the block changes. -/
theorem registerBlockStored : Obligations.RegisterBlockStored := by
  intro x s h
  exact ⟨_, exec_storeRegs_of_in_range h, rfl, toNat_advanced_I h, fun k => read_storedRegs s,
    fun a => onlyStoresWriteMemory _ s _ a (exec_storeRegs_of_in_range h)⟩

/-- Settles O29: V[k] is byte k of the block up to X, and as before above. -/
theorem registerBlockLoaded : Obligations.RegisterBlockLoaded := by
  intro x s h
  exact ⟨_, exec_loadRegs_of_in_range h, rfl, toNat_advanced_I h, fun k => getV_loadedRegs s,
    fun k => getV_loadedRegs_of_gt s⟩

/-- Settles O25: SetI holds the sum or raises with it. -/
theorem addToIndexIsExactOrFaults : Obligations.AddToIndexIsExactOrFaults := by
  refine fun x s => ⟨fun h => ⟨_, exec_addI_of_le h, rfl, ?_⟩, fun h => ?_⟩
  · exact (BitVec.toNat_ofNat ..).trans (Nat.mod_eq_of_lt (Nat.lt_succ_of_le h))
  · exact congrArg Host.Outcome.next ((setI_of_gt s State.advance h).trans (raise_eq_faultedWith s _ _))

/-- Settles O26: GLYPH_BASE is 0, and five times a byte fits I. -/
theorem glyphAddressIsFiveTimesTheValue : Obligations.GlyphAddressIsFiveTimesTheValue := by
  intro x s
  refine ⟨_, exec_ldF x s, rfl, ?_⟩
  rw [State.advance_I, BitVec.toNat_ofNat, Nat.mod_eq_of_lt (Nat.lt_succ_of_le (glyphAddress_le _)), glyphAddress_eq]

/-- Settles O31: the four blocks have 3, X + 1, X + 1 and N bytes. -/
theorem blocksOutOfRangeFaultBeforeAnyWrite : Obligations.BlocksOutOfRangeFaultBeforeAnyWrite :=
  fun _ _ _ s => ⟨guardRange_faults s _ (Nat.succ_pos 2), guardRange_faults s _ (Nat.succ_pos _),
    guardRange_faults s _ (Nat.succ_pos _), guardRange_faults s _⟩

/-- Settles O37: by whether V[X] names a key. -/
theorem skipsOnKeys : Obligations.SkipsOnKeys := by
  refine fun x s => ⟨fun k hk => ⟨?_, ?_⟩, fun h => ⟨?_, ?_⟩⟩
  · exact congrArg Host.Outcome.next ((skipOnKey_of_key _ hk).trans (skipIf_eq_ite s Iff.rfl))
  · exact congrArg Host.Outcome.next ((skipOnKey_of_key _ hk).trans (skipIf_eq_ite s (iff_of_eq (Bool.not_eq_true' _))))
  · exact congrArg Host.Outcome.next (skipOnKey_of_gt _ h)
  · exact congrArg Host.Outcome.next (skipOnKey_of_gt _ h)

end Sys2Proof.Machine
end

section
/-! Drawing by the pixels a sprite covers (spec/44_display.md R211 to R213). -/

namespace Sys2Proof.Machine

/-! ## DRW in range -/

/-- What DRW leaves when its block is in range: by `exec_drw_of_in_range`. -/
def State.drawnState (s : State) (x y : Reg) (n : Nibble) : State :=
  ({ s with
      disp := (s.drawn edgeMode x y n.toNat).disp
      redraw := true }.setV VF (flagByte (s.drawn edgeMode x y n.toNat).collide)).advance

theorem exec_drw_of_in_range (x y : Reg) {n : Nibble} {s : State} (h : n.toNat = 0 ∨ s.I.toNat + n.toNat - 1 < 4096) :
    exec (.drw x y n) s = .next (s.drawnState x y n) :=
  congrArg Host.Outcome.next (guardRange_of_in_range s _ h)

theorem getV_drawnState_VF (s : State) (x y : Reg) (n : Nibble) :
    (s.drawnState x y n).getV VF = flagByte (s.drawn edgeMode x y n.toNat).collide :=
  State.getV_setV_self _ VF _

theorem getV_drawnState_of_ne (s : State) (x y : Reg) (n : Nibble) {k : Reg} (h : k ≠ VF) :
    (s.drawnState x y n).getV k = s.getV k :=
  State.getV_setV_of_ne _ _ h

/-! ## The pixels of the sprite -/

theorem getElem?_readList_eq_some {m : Memory} {a n k : Nat} {b : Byte} :
    (m.readList a n)[k]? = some b ↔ k < n ∧ b = m.read (a + k) := by
  rw [List.getElem?_eq_some_iff]
  constructor
  · rintro ⟨hk, rfl⟩
    exact ⟨by simpa using hk, Memory.getElem_readList m a n k hk⟩
  · rintro ⟨hk, rfl⟩
    exact ⟨by simpa using hk, Memory.getElem_readList m a n k _⟩

theorem pixelAt_wrap_eq_some {px py : Nat} {c : Fin 64} {r : Fin 32} :
    pixelAt .wrap px py = some (c, r) ↔ px % 64 = c.val ∧ py % 32 = r.val := by
  simp [pixelAt, Fin.ext_iff]

/-- The pixels that drawing flips are the ones the sprite at I covers. -/
theorem spritePixels_iff_spriteCovers (s : State) (x y : Reg) (n : Nat) (c : Fin 64) (r : Fin 32) :
    SpritePixels edgeMode (s.mem.readList s.I.toNat n) (s.getV x).toNat (s.getV y).toNat c r ↔
      spriteCovers s x y n c r := by
  constructor
  · rintro ⟨row, b, hb, col, hcol, hbit, hpix⟩
    obtain ⟨hrow, rfl⟩ := getElem?_readList_eq_some.1 hb
    exact ⟨row, hrow, col, hcol, hbit, pixelAt_wrap_eq_some.1 hpix⟩
  · rintro ⟨row, hrow, col, hcol, hbit, hpix⟩
    exact ⟨row, _, getElem?_readList_eq_some.2 ⟨hrow, rfl⟩, col, hcol, hbit, pixelAt_wrap_eq_some.2 hpix⟩

/-- A draw flips exactly the covered pixels. -/
theorem drawn_draws (s : State) (x y : Reg) (n : Nibble) :
    Draws (spriteCovers s x y n.toNat) { disp := s.disp, collide := false } (s.drawn edgeMode x y n.toNat) := by
  refine (drawSprite_draws edgeMode _ _ _ _ ?_).congr (spritePixels_iff_spriteCovers s x y n.toNat)
  have hn := n.isLt
  rw [Memory.length_readList]
  omega

/-- The collision of a draw (decision D11). -/
theorem drawn_collide_iff (s : State) (x y : Reg) (n : Nibble) : (s.drawn edgeMode x y n.toNat).collide = true ↔
    ∃ c r, spriteCovers s x y n.toNat c r ∧ s.disp.get c r = true := by
  simpa using (drawn_draws s x y n).collides

theorem getV_drawnState_VF_eq_one {s : State} {x y : Reg} {n : Nibble}
    (h : ∃ c r, spriteCovers s x y n.toNat c r ∧ s.disp.get c r = true) : (s.drawnState x y n).getV VF = 1 := by
  rw [getV_drawnState_VF, (drawn_collide_iff s x y n).2 h]
  rfl

theorem getV_drawnState_VF_eq_zero {s : State} {x y : Reg} {n : Nibble}
    (h : ¬ ∃ c r, spriteCovers s x y n.toNat c r ∧ s.disp.get c r = true) : (s.drawnState x y n).getV VF = 0 := by
  rw [getV_drawnState_VF, Bool.eq_false_iff.2 fun hc => h ((drawn_collide_iff s x y n).1 hc)]
  rfl

/-- Drawing the same pixels twice restores every pixel. -/
theorem Draws.restores {P : Fin 64 → Fin 32 → Prop} {cv cv' cv'' cw : Canvas} (h : Draws P cv cv') (h' : Draws P cw cv'')
    (hd : cw.disp = cv'.disp) (c : Fin 64) (r : Fin 32) : cv''.disp.get c r = cv.disp.get c r := by
  by_cases hp : P c r
  · rw [h'.flipped c r hp, hd, h.flipped c r hp, Bool.not_not]
  · rw [h'.kept c r hp, hd, h.kept c r hp]

/-- With X and Y not F a draw moves no later one: memory, I and the coordinates are as before. -/
theorem spriteCovers_drawnState (s : State) {x y : Reg} (n : Nibble) (hx : x ≠ VF) (hy : y ≠ VF) :
    spriteCovers (s.drawnState x y n) x y n.toNat = spriteCovers s x y n.toNat := by
  funext c r
  simp only [spriteCovers, getV_drawnState_of_ne s x y n hx, getV_drawnState_of_ne s x y n hy]
  rfl

/-! ## Both edge modes -/

theorem pixelAt_clip_eq_wrap {px py : Nat} (hx : px < 64) (hy : py < 32) : pixelAt .clip px py = pixelAt .wrap px py := by
  simp only [pixelAt, hx, hy, and_self, dif_pos, Nat.mod_eq_of_lt]

theorem drawRow_clip_eq_wrap {px py : Nat} (b : Byte) (cv : Canvas) (hx : px + 8 ≤ 64) (hy : py < 32) :
    drawRow .clip px py b cv = drawRow .wrap px py b cv := by
  refine List.foldl_ext _ _ _ fun cw col hcol => ?_
  have hcol8 : col < 8 := List.mem_range.1 hcol
  simp only [drawBit, pixelAt_clip_eq_wrap (show px + col < 64 by omega) hy]

end Sys2Proof.Machine
end

section
/-! The other statements about the display (spec/44_display.md R211 to R213). -/

namespace Sys2Proof.Machine

/-- Settles O33: a draw flips the covered pixels, and VF is written last with its collision. -/
theorem drwXorsTheSprite : Obligations.DrwXorsTheSprite := by
  intro x y n s h
  have hdraws := drawn_draws s x y n
  exact ⟨_, exec_drw_of_in_range x y h, rfl, fun c r => ⟨hdraws.flipped c r, hdraws.kept c r⟩,
    getV_drawnState_VF_eq_one, getV_drawnState_VF_eq_zero, fun k => getV_drawnState_of_ne s x y n⟩

/-- Settles O34: the second draw covers the same pixels, and from a clear display the first one has set them. -/
theorem drawingTwiceRestoresTheDisplay : Obligations.DrawingTwiceRestoresTheDisplay := by
  intro x y n s hx hy h
  have hcovers := spriteCovers_drawnState s n hx hy
  have hfirst := drawn_draws s x y n
  have hsecond := hcovers ▸ drawn_draws (s.drawnState x y n) x y n
  refine ⟨_, _, exec_drw_of_in_range x y h, exec_drw_of_in_range x y (s := s.drawnState x y n) h,
    hfirst.restores hsecond rfl, fun hclear ⟨c, r, hcr⟩ => getV_drawnState_VF_eq_one ⟨c, r, hcovers ▸ hcr, ?_⟩⟩
  exact (hfirst.flipped c r hcr).trans (congrArg (!·) (hclear c r))

/-- Settles O35: row by row, no pixel of the sprite is over an edge. -/
theorem edgeModesAgreeOnScreen : Obligations.EdgeModesAgreeOnScreen := by
  intro px py bs cv hx hy
  induction bs generalizing py cv with
  | nil => rfl
  | cons b bs ih =>
    rw [List.length_cons] at hy
    rw [drawSprite, drawSprite, drawRow_clip_eq_wrap b cv hx (by omega), ih (py + 1) _ (by omega)]

end Sys2Proof.Machine
end

section
/-! Memory as data: what reads alike is equal, and what construction leaves (spec/20_memory.md R66, R67,
spec/70_reset_and_hazards.md R341). -/

namespace Sys2Proof.Machine.Memory

theorem wf_cons_iff {p : Host.Cell} {m : Memory} : Memory.wf (p :: m) ↔
    (∀ q ∈ m, p.1 < q.1) ∧ p.1 < 4096 ∧ p.2 ≠ resetByte p.1 ∧ m.wf := by
  simp only [Memory.wf, List.pairwise_cons, List.forall_mem_cons]
  tauto

theorem read_cons_self (p : Host.Cell) (m : Memory) : Memory.read (p :: m) p.1 = p.2 := by
  simp [Memory.read]

theorem read_cons_of_ne {p : Host.Cell} {a : Nat} (m : Memory) (h : p.1 ≠ a) : Memory.read (p :: m) a = m.read a := by
  simp [Memory.read, h]

/-- An address with no cell reads as after construction. -/
theorem read_of_unlisted {m : Memory} {a : Nat} (h : ∀ q ∈ m, q.1 ≠ a) : m.read a = resetByte a := by
  induction m with
  | nil => rfl
  | cons q m ih =>
    obtain ⟨hq, hm⟩ := List.forall_mem_cons.1 h
    rw [read_cons_of_ne m hq, ih hm]

/-- Of two canonical memories that read alike, neither begins at a lower address: its first cell would read apart. -/
theorem head_not_lt {p q : Host.Cell} {m m' : Memory} (h : Memory.wf (p :: m)) (h' : Memory.wf (q :: m'))
    (hread : ∀ a, Memory.read (p :: m) a = Memory.read (q :: m') a) : ¬ p.1 < q.1 := by
  intro hlt
  obtain ⟨-, -, hp, -⟩ := wf_cons_iff.1 h
  obtain ⟨hq, -, -, -⟩ := wf_cons_iff.1 h'
  have hunlisted : ∀ c ∈ q :: m', c.1 ≠ p.1 :=
    List.forall_mem_cons.2 ⟨hlt.ne', fun c hc => (hlt.trans (hq c hc)).ne'⟩
  exact hp ((read_cons_self p m).symm.trans ((hread p.1).trans (read_of_unlisted hunlisted)))

/-- A canonical memory that reads as after construction holds no cell. -/
theorem eq_nil_of_read {m : Memory} (h : m.wf) (hread : ∀ a, m.read a = resetByte a) : m = [] := by
  cases m with
  | nil => rfl
  | cons p m =>
    obtain ⟨-, -, hp, -⟩ := wf_cons_iff.1 h
    exact absurd ((read_cons_self p m).symm.trans (hread p.1)) hp

/-- By the first cells, which stand at the same address and hold the same byte. -/
theorem eq_of_read_eq {m m' : Memory} (h : m.wf) (h' : m'.wf) (hread : ∀ a, m.read a = m'.read a) : m = m' := by
  induction m generalizing m' with
  | nil => exact (eq_nil_of_read h' fun a => (hread a).symm).symm
  | cons p m ih =>
    cases m' with
    | nil => exact eq_nil_of_read h hread
    | cons q m' =>
      have haddr : p.1 = q.1 :=
        Nat.le_antisymm (Nat.not_lt.1 (head_not_lt h' h fun a => (hread a).symm)) (Nat.not_lt.1 (head_not_lt h h' hread))
      have hpq : p = q :=
        Prod.ext haddr ((read_cons_self p m).symm.trans ((hread p.1).trans (haddr ▸ read_cons_self q m')))
      subst hpq
      obtain ⟨hlow, -, -, hm⟩ := wf_cons_iff.1 h
      obtain ⟨hlow', -, -, hm'⟩ := wf_cons_iff.1 h'
      have htail (a : Nat) : Memory.read m a = Memory.read m' a := by
        by_cases ha : p.1 = a
        · subst ha
          rw [read_of_unlisted fun c hc => (hlow c hc).ne', read_of_unlisted fun c hc => (hlow' c hc).ne']
        · rw [← read_cons_of_ne m ha, hread, read_cons_of_ne m' ha]
      rw [ih hm hm' htail]

end Sys2Proof.Machine.Memory

namespace Sys2Proof.Machine

/-- The glyph table ends at 0x50. -/
theorem resetByte_of_le {a : Nat} (h : 80 ≤ a) : resetByte a = 0 := by
  have hbase : ¬ a < glyphBase := Nat.not_lt_zero a
  have hend : glyphTable.length ≤ a - glyphBase := h
  rw [resetByte, if_neg hbase, List.getElem?_eq_none hend, Option.getD_none]

theorem construct_of_le {img : List Byte} (h : img.length ≤ 3584) :
    construct img = .next (State.reset.storeBytes 0x200 img) :=
  if_neg (by omega)

theorem construct_of_gt {img : List Byte} (h : 3584 < img.length) : construct img = .fault (.loadError img.length) :=
  if_pos h

end Sys2Proof.Machine
end

section
/-! The statements about memory as data, reset and construction (spec/20_memory.md, spec/70_reset_and_hazards.md). -/

namespace Sys2Proof.Machine

/-- Settles O55: by induction on the cells. -/
theorem canonicalMemoriesThatReadAlikeAreEqual : Obligations.CanonicalMemoriesThatReadAlikeAreEqual :=
  fun _ _ => Memory.eq_of_read_eq

/-- Settles O57: the image is a block written to canonical memory, and it ends in memory exactly when it is not too long. -/
theorem constructionLoadsTheImage : Obligations.ConstructionLoadsTheImage := by
  intro img
  refine ⟨fun h => ⟨_, construct_of_le h, rfl, ?_, fun k hk => ?_, fun a ha => ?_⟩, construct_of_gt⟩
  · obtain ⟨-, hpc, hs, hmode⟩ := resetMeetsTheInvariant
    exact ⟨Memory.wf_writeList 0x200 img Memory.wf_nil (by omega), hpc, hs, hmode⟩
  · exact Memory.read_writeList_of_inside _ 0x200 hk
  · exact Memory.read_writeList_of_outside _ ha

/-- Settles O56: every part is a constant of the reset state, and memory reads as the glyph table and then as 0. -/
theorem resetState : Obligations.ResetState :=
  ⟨rfl, rfl, rfl, rfl, rfl, rfl, rfl, rfl, fun k => Vector.getElem_replicate k.isLt,
    fun j => Vector.getElem_replicate j.isLt, Display.get_blank, rfl, rfl, fun _ => resetByte_of_le⟩

end Sys2Proof.Machine
end

section
/-! The frame of every instruction: the registers, the display, and what no instruction reads (spec/10_state.md R21, R27, R30
to R33). -/

namespace Sys2Proof.Machine

/-! ## Registers -/

/-- An instruction that may write no register leaves the register file. -/
theorem Completes.V_eq {i : Instr} {s t : State} (h : Completes i s t) (hi : ∀ k, ¬ writesReg i k) : t.V = s.V := by
  cases i
  case jp | jpV0 | ldVxK | ldDTVx | ldSTVx | cls => obtain rfl := h; rfl
  case ret | storeRegs => obtain ⟨_, _, rfl⟩ := h; rfl
  case call | seByte | sneByte | seReg | sneReg | skp | sknp | ldI | addI | ldF | ldB => obtain ⟨_, rfl⟩ := h; rfl
  case drw => exact absurd rfl (hi VF)
  case loadRegs => exact absurd (Fin.zero_le _) (hi 0)
  case addReg x _ | subReg x _ | shr x _ | subn x _ | shl x _ => exact absurd (.inl rfl) (hi x)
  case ldByte x _ | addByte x _ | ldReg x _ | orReg x _ | andReg x _ | xorReg x _ | rnd x _ | ldVxDT x =>
    exact absurd rfl (hi x)

theorem V_eq_of_exec {i : Instr} {s t : State} (h : exec i s = .next t) (hi : ∀ k, ¬ writesReg i k) : t.V = s.V := by
  obtain ⟨_, _, rfl⟩ | hc := raisesOrCompletes_of_exec h
  · rfl
  · exact hc.V_eq hi

/-- In `t` every register that `i` may not write holds what it held in `s`. -/
def KeepsOtherRegs (i : Instr) (s t : State) : Prop := ∀ k, ¬ writesReg i k → t.getV k = s.getV k

theorem drw_keepsOtherRegs (x y : Reg) (n : Nibble) (s : State) :
    ∃ t, exec (.drw x y n) s = .next t ∧ KeepsOtherRegs (.drw x y n) s t := by
  by_cases h : n.toNat = 0 ∨ s.I.toNat + n.toNat - 1 < 4096
  · exact ⟨_, exec_drw_of_in_range x y h, fun k => getV_drawnState_of_ne s x y n⟩
  · exact ⟨_, guardRange_faults s _ (by omega) (by omega), fun _ _ => rfl⟩

theorem loadRegs_keepsOtherRegs (x : Reg) (s : State) :
    ∃ t, exec (.loadRegs x) s = .next t ∧ KeepsOtherRegs (.loadRegs x) s t := by
  by_cases h : s.I.toNat + x.val < 4096
  · exact ⟨_, exec_loadRegs_of_in_range h, fun k hk => getV_loadedRegs_of_gt s (not_le.1 hk)⟩
  · exact ⟨_, guardRange_faults s _ (Nat.succ_pos _) (by omega), fun _ _ => rfl⟩

/-- EVERY INSTRUCTION that may write a register writes no other one. -/
theorem exec_keepsOtherRegs (i : Instr) (s : State) : ∃ t, exec i s = .next t ∧ KeepsOtherRegs i s t :=
  match i with
  | .ldByte _ _ | .addByte _ _ | .ldReg _ _ | .orReg _ _ | .andReg _ _ | .xorReg _ _ | .ldVxDT _ =>
    ⟨_, rfl, fun _ hk => s.getV_setResult_of_ne _ hk⟩
  | .rnd _ _ => ⟨_, rfl, fun k hk => (s.afterRandom.getV_setResult_of_ne _ hk).trans (getV_afterRandom s k)⟩
  | .addReg _ _ | .subReg _ _ | .subn _ _ =>
    ⟨_, rfl, fun _ hk => s.getV_setResultFlag_of_ne _ _ (mt .inl hk) (mt .inr hk)⟩
  | .shr _ _ | .shl _ _ => ⟨_, rfl, fun _ hk => s.getV_shiftInto_of_ne _ _ (mt .inl hk) (mt .inr hk)⟩
  | .drw x y n => drw_keepsOtherRegs x y n s
  | .loadRegs x => loadRegs_keepsOtherRegs x s
  | .cls | .ret | .jp _ | .call _ | .seByte _ _ | .sneByte _ _ | .seReg _ _ | .sneReg _ _ | .ldI _ | .jpV0 _ | .skp _
  | .sknp _ | .ldVxK _ | .ldDTVx _ | .ldSTVx _ | .addI _ | .ldF _ | .ldB _ | .storeRegs _ => by
    obtain ⟨t, ht, -⟩ := exec_outcome _ s
    exact ⟨t, ht, fun k _ => congrArg (·[k.val]) (V_eq_of_exec ht fun _ => id)⟩

/-! ## What no instruction, or only some, can learn -/

/-- A change of the parts that few instructions read: the byte at hand, the keys, ST and the stack. -/
structure UnreadChange where
  rand  : Option Byte → Option Byte
  keys  : KeyVec → KeyVec
  ST    : Byte → Byte
  stack : Vector Word 16 → Vector Word 16

namespace UnreadChange

/-- The state with those four parts changed. -/
def apply (u : UnreadChange) (s : State) : State :=
  { s with rand := u.rand s.rand, keys := u.keys s.keys, ST := u.ST s.ST, stack := u.stack s.stack }

/-- The change leaves alone what `i` reads, or overwrites, in `s`. -/
structure Allowed (u : UnreadChange) (i : Instr) (s : State) : Prop where
  rnd : (∃ x nn, i = .rnd x nn) → ∀ o, u.rand o = o
  skip : (∃ x, i = .skp x ∨ i = .sknp x) → ∀ v, u.keys v = v
  sound : (∃ x, i = .ldSTVx x) → ∀ b, u.ST b = b
  call : (∃ n, i = .call n) → ∀ st, u.stack st = st
  ret : ∀ j : Fin 16, j.val < s.sp.val → (u.stack s.stack)[j.val] = s.stack[j.val]

variable (u : UnreadChange) (s : State)

theorem guardRange_apply (t : State) (first count : Nat) :
    (u.apply s).guardRange first count (u.apply t) = u.apply (s.guardRange first count t) := by
  unfold State.guardRange
  split <;> rfl

theorem setI_apply (v : Nat) : (u.apply s).setI v State.advance = u.apply (s.setI v State.advance) := by
  unfold State.setI
  split <;> rfl

variable {u}

theorem skipOnKey_apply (h : ∀ v, u.keys v = v) (x : Reg) (f : Bool → Bool) :
    (u.apply s).skipOnKey x f = u.apply (s.skipOnKey x f) := by
  have hkeys : (u.apply s).keys = s.keys := h s.keys
  have hV : (u.apply s).getV x = s.getV x := rfl
  simp only [State.skipOnKey, hkeys, hV]
  split <;> rfl

theorem rnd_apply (h : ∀ o, u.rand o = o) (x : Reg) (nn : Byte) :
    exec (.rnd x nn) (u.apply s) = mapNext u.apply (exec (.rnd x nn) s) := by
  have hrand : (u.apply s).rand = s.rand := h s.rand
  have hbyte : (u.apply s).randomByte = s.randomByte := by
    simp only [State.randomByte, hrand]
    rfl
  have hafter : (u.apply s).afterRandom = u.apply s.afterRandom := by
    cases hr : s.rand with
    | none =>
      rw [afterRandom_of_none hr, afterRandom_of_none (hrand.trans hr)]
      rfl
    | some r => rw [afterRandom_of_some hr, afterRandom_of_some (hrand.trans hr)]
  rw [exec_rnd, hbyte, hafter]
  rfl

theorem call_apply (h : ∀ st, u.stack st = st) (nnn : Addr) :
    execCall nnn (u.apply s) = mapNext u.apply (execCall nnn s) := by
  by_cases hsp : s.sp.val < 16
  · rw [execCall_of_lt nnn s hsp, execCall_of_lt nnn (u.apply s) hsp]
    simp only [mapNext, apply, h]
  · have hfull : s.sp.val = 16 := by omega
    rw [execCall_full nnn s hfull, execCall_full nnn (u.apply s) hfull]
    rfl

theorem ret_apply (h : ∀ j : Fin 16, j.val < s.sp.val → (u.stack s.stack)[j.val] = s.stack[j.val]) :
    execRet (u.apply s) = mapNext u.apply (execRet s) := by
  by_cases h0 : s.sp.val = 0
  · rw [execRet_empty s h0, execRet_empty (u.apply s) h0]
    rfl
  · obtain ⟨j, hj⟩ : ∃ j : Fin 16, s.sp.val = j.val + 1 := ⟨⟨s.sp.val - 1, by omega⟩, by simp only; omega⟩
    have hentry : (u.apply s).stack[j.val] = s.stack[j.val] := h j (by omega)
    rw [execRet_of_pos s j hj, execRet_of_pos (u.apply s) j hj, hentry]
    rfl

theorem ldSTVx_apply (h : ∀ b, u.ST b = b) (x : Reg) :
    exec (.ldSTVx x) (u.apply s) = mapNext u.apply (exec (.ldSTVx x) s) := by
  rw [exec_ldSTVx, exec_ldSTVx]
  simp only [mapNext, apply, State.advance, h]
  rfl

/-- EVERY INSTRUCTION: two states that differ by an allowed change give results that differ by the same change. -/
theorem exec_apply (i : Instr) (h : u.Allowed i s) : exec i (u.apply s) = mapNext u.apply (exec i s) :=
  match i, h with
  | .rnd x nn, h => rnd_apply s (h.rnd ⟨x, nn, rfl⟩) x nn
  | .skp x, h => congrArg Host.Outcome.next (skipOnKey_apply s (h.skip ⟨x, .inl rfl⟩) x _)
  | .sknp x, h => congrArg Host.Outcome.next (skipOnKey_apply s (h.skip ⟨x, .inr rfl⟩) x _)
  | .ldSTVx x, h => ldSTVx_apply s (h.sound ⟨x, rfl⟩) x
  | .call n, h => call_apply s (h.call ⟨n, rfl⟩) n
  | .ret, h => ret_apply s h.ret
  | .ldI _, _ | .addI _, _ | .ldF _, _ => congrArg Host.Outcome.next (setI_apply u s _)
  | .drw x y n, _ => congrArg Host.Outcome.next (guardRange_apply u s (s.drawnState x y n) _ _)
  | .ldB x, _ => congrArg Host.Outcome.next
      (guardRange_apply u s (s.storeBytes s.I.toNat (bcdDigits (s.getV x))).advance _ _)
  | .storeRegs x, _ => congrArg Host.Outcome.next
      ((congrArg ((u.apply s).guardRange _ _) (setI_apply u (s.storeBytes s.I.toNat (s.lowRegs x)) _)).trans
        (guardRange_apply u s _ _ _))
  | .loadRegs x, _ => congrArg Host.Outcome.next
      ((congrArg ((u.apply s).guardRange _ _)
        (setI_apply u { s with V := loadInto s.mem s.I.toNat (x.val + 1) s.V } _)).trans (guardRange_apply u s _ _ _))
  | .cls, _ | .jp _, _ | .jpV0 _, _ | .seByte _ _, _ | .sneByte _ _, _ | .seReg _ _, _ | .sneReg _ _, _ | .ldByte _ _, _
  | .addByte _ _, _ | .ldReg _ _, _ | .orReg _ _, _ | .andReg _ _, _ | .xorReg _ _, _ | .addReg _ _, _ | .subReg _ _, _
  | .shr _ _, _ | .subn _ _, _ | .shl _ _, _ | .ldVxDT _, _ | .ldVxK _, _ | .ldDTVx _, _ => rfl

end UnreadChange

end Sys2Proof.Machine
end

section
/-! The statements about the frame of every instruction (spec/10_state.md). -/

namespace Sys2Proof.Machine

/-- Settles O51: by the instruction's own equation where it may write a register. -/
theorem onlyDestinationsAndFlagsChange : Obligations.OnlyDestinationsAndFlagsChange := by
  intro i s t k h hk
  obtain ⟨u, hu, hregs⟩ := exec_keepsOtherRegs i s
  exact Host.Outcome.next.inj (hu.symm.trans h) ▸ hregs k hk

/-- Settles O52: an error keeps all these parts, and `Completes` names the parts each instruction may write. -/
theorem onlyClsAndDrwChangeTheDisplay : Obligations.OnlyClsAndDrwChangeTheDisplay := by
  intro i s t h
  obtain ⟨_, _, rfl⟩ | hc := raisesOrCompletes_of_exec h
  · simp
  · cases i
    case cls => obtain rfl := hc; simp
    case drw => obtain ⟨_, _, rfl⟩ := hc; simp
    case jp | jpV0 | ldVxK | ldDTVx | ldSTVx => obtain rfl := hc; simp
    case ret | rnd | storeRegs | loadRegs => obtain ⟨_, _, rfl⟩ := hc; simp
    all_goals obtain ⟨_, rfl⟩ := hc; simp

/-- Settles O54: each change is an allowed one of its part alone. -/
theorem unreadStateDoesNotInfluence : Obligations.UnreadStateDoesNotInfluence := by
  refine fun i s => ⟨fun r hi => ?_, fun v hskp hsknp => ?_, fun b hi => ?_, fun j a hj hi => ?_⟩
  · exact UnreadChange.exec_apply (u := ⟨fun _ => r, id, id, id⟩) s i
      ⟨fun ⟨x, nn, h⟩ => absurd h (hi x nn), fun _ _ => rfl, fun _ _ => rfl, fun _ _ => rfl, fun _ _ => rfl⟩
  · exact UnreadChange.exec_apply (u := ⟨id, fun _ => v, id, id⟩) s i
      ⟨fun _ _ => rfl, fun ⟨x, h⟩ => absurd h (not_or.2 ⟨hskp x, hsknp x⟩), fun _ _ => rfl, fun _ _ => rfl,
        fun _ _ => rfl⟩
  · exact UnreadChange.exec_apply (u := ⟨id, id, fun _ => b, id⟩) s i
      ⟨fun _ _ => rfl, fun _ _ => rfl, fun ⟨x, h⟩ => absurd h (hi x), fun _ _ => rfl, fun _ _ => rfl⟩
  · exact UnreadChange.exec_apply (u := ⟨id, id, id, fun st => st.set j.val a⟩) s i
      ⟨fun _ _ => rfl, fun _ _ => rfl, fun _ _ => rfl, fun ⟨n, h⟩ => absurd h (hi n),
        fun k hk => Vector.getElem_set_ne j.isLt k.isLt (by omega)⟩

end Sys2Proof.Machine
end
